-- ==== Sys2Proof/Word.lean ====
section
/-! DEFINITION. The value types every rule of the spec computes over (10_state.md R20 to R24, 00_scope.md R7, R8, R11).
Every value is an unsigned integer of a stated width (R11); bit 0 is the least significant bit (R10). -/

namespace Sys2Proof

/-- `u26`: a 26-bit Wiegand word, parity-valid or not (R20). -/
abbrev Word26 := BitVec 26

/-- `u24`: the payload, facility (8 bits, high) and card (16 bits, low) (R21). -/
abbrev Payload24 := BitVec 24

/-- `u8`: a facility code (R22). -/
abbrev FacilityCode := BitVec 8

/-- `u16`: a card number (R23). -/
abbrev CardNumber := BitVec 16

/-- `u1`: a parity bit, or the one-bit value `parityOk` (R24, R28). -/
abbrev ParityBit := BitVec 1

/-- `u32`: a raw numeric input, the operand field and the result field (R7, R63, R68). -/
abbrev U32 := BitVec 32

/-- `u40`: the width of the request word and of the response word (R8, R32). -/
abbrev PortWord := BitVec 40

/-- A present text: a finite sequence of characters, possibly empty (R135). -/
abbrev Text := List Char

end Sys2Proof
end

