-- ==== Sys2Proof/Machine/Operands.lean ====
section
/-! DEFINITION. Assembly and extraction of the word and the payload (40_codec.md R80 to R84; layouts in 30_encoding.md R55
to R61). -/

namespace Sys2Proof.Machine

/-- `(facility << 16) | card` (R57, R80). -/
def mkpayload (facility : FacilityCode) (card : CardNumber) : Payload24 :=
  facility.setWidth 24 <<< 16 ||| card.setWidth 24

/-- `(p1 << 25) | (payload << 1) | p2` (R56, R81). -/
def assemble (p1 : ParityBit) (payload : Payload24) (p2 : ParityBit) : Word26 :=
  p1.setWidth 26 <<< 25 ||| payload.setWidth 26 <<< 1 ||| p2.setWidth 26

/-- `(word >> 1) & 0xFFFFFF` (R59, R82). -/
def payloadOf (word : Word26) : Payload24 := (word >>> 1 &&& 0xFFFFFF#26).setWidth 24

/-- `(payload >> 16) & 0xFF` (R60, R83). -/
def facilityOf (payload : Payload24) : FacilityCode := (payload >>> 16 &&& 0xFF#24).setWidth 8

/-- `payload & 0xFFFF` (R60, R83). -/
def cardOf (payload : Payload24) : CardNumber := (payload &&& 0xFFFF#24).setWidth 16

/-- The actual P1, `(word >> 25) & 1` (R61, R84). -/
def p1Of (word : Word26) : ParityBit := (word >>> 25 &&& 1#26).setWidth 1

/-- The actual P2, `word & 1` (R61, R84). -/
def p2Of (word : Word26) : ParityBit := (word &&& 1#26).setWidth 1

end Sys2Proof.Machine
end

