-- ==== Sys2Proof/Machine/Flags.lean ====
section
/-! DEFINITION. The flag-like values of the block (10_state.md R28): the population count, the expected parity bits and the
parity_check_unit (41_parity.md R100 to R104). None persists. -/

namespace Sys2Proof.Machine

/-- `value[0] + value[1] + ... + value[31]`, an ordinary integer sum (R100). -/
def onesCount (value : U32) : Nat :=
  ((List.range 32).map fun i => (value.getLsbD i).toNat).sum

/-- The population count as the `u6` it is typed (R100). -/
def popcount (value : U32) : BitVec 6 := BitVec.ofNat 6 (onesCount value)

/-- Even parity over the upper half: `popcount(zext_32((payload >> 12) & 0xFFF)) mod 2` (R101, R103). -/
def p1Expected (payload : Payload24) : ParityBit :=
  BitVec.ofNat 1 ((popcount ((payload >>> 12 &&& 0xFFF#24).setWidth 32)).toNat % 2)

/-- Odd parity over the lower half: `1 - (popcount(zext_32(payload & 0xFFF)) mod 2)` (R102, R103). -/
def p2Expected (payload : Payload24) : ParityBit :=
  BitVec.ofNat 1 (1 - (popcount ((payload &&& 0xFFF#24).setWidth 32)).toNat % 2)

/-- The five outputs of the parity_check_unit (R104). -/
structure ParityCheck where
  ok : ParityBit
  a1 : ParityBit
  e1 : ParityBit
  a2 : ParityBit
  e2 : ParityBit
  deriving DecidableEq, Repr

/-- The parity_check_unit: one input, five outputs; both actual bits must equal the expected ones (R104). -/
def parityCheck (word : Word26) : ParityCheck :=
  let payload := payloadOf word
  let e1 := p1Expected payload
  let e2 := p2Expected payload
  let a1 := p1Of word
  let a2 := p2Of word
  { ok := if a1 = e1 ∧ a2 = e2 then 1 else 0, a1, e1, a2, e2 }

/-- `parity_ok(word)` (R104). -/
def parityOk (word : Word26) : ParityBit := (parityCheck word).ok

end Sys2Proof.Machine
end

