-- ==== Sys2Proof/Syntax.lean ====
section
/-! DEFINITION. The eight operations (30_encoding.md R66), the operand formats (R67), the raw request word's fields (R63),
and the ways a request can be malformed (R73, R74). -/

namespace Sys2Proof

/-- The mnemonics of the operation table, in the order of their op numbers (R66). -/
inductive Mnemonic where
  | ENC | DEC | PGEN | PCHK | POPC | WCHK | FCHK | CCHK
  deriving DecidableEq, Repr

/-- The four operand formats (R67). -/
inductive Format where
  /-- facility and card: `opnd[31:24]` must be zero -/
  | FC
  /-- a word: `opnd[31:26]` must be zero, `S` is the strict bit -/
  | W
  /-- a payload: `opnd[31:24]` must be zero -/
  | P
  /-- any 32-bit value -/
  | V
  deriving DecidableEq, Repr

/-- The fields of a request word, as they stand in it and before any check (R63). -/
structure Request where
  op     : BitVec 4   -- REQ[39:36]
  mbz    : BitVec 3   -- REQ[35:33]
  strict : Bool       -- REQ[32], the bit S
  opnd   : U32        -- REQ[31:0]
  deriving DecidableEq, Repr

/-- One constructor per row of spec/opcode_table.json. The operands are typed as R66 types them, so a term is a
well-formed operation by construction (R67); `strict` is the bit `S`, which only DEC and PCHK carry (R65). -/
inductive Instr where
  | enc  (facility : FacilityCode) (card : CardNumber)
  | dec  (strict : Bool) (word : Word26)
  | pgen (payload : Payload24)
  | pchk (strict : Bool) (word : Word26)
  | popc (value : U32)
  | wchk (value : U32)
  | fchk (value : U32)
  | cchk (value : U32)
  deriving DecidableEq, Repr

/-- Why a request word is refused: the first of R73's steps 1 to 4 that applies (93_implementation_defined.md X1 to X4). -/
inductive Malformation where
  /-- step 1: `op` is 8 to 15 -/
  | reservedOp
  /-- step 2: `REQ[35:33]` is not 0 -/
  | mustBeZero
  /-- step 3: `S = 1` on an operation without a strict mode -/
  | strictNotAllowed
  /-- step 4: a must-be-zero operand bit is set -/
  | operandMustBeZero
  deriving DecidableEq, Repr

/-- One row of R75's table: a request `r` selects the row when `r &&& mask = pattern`. -/
structure OpcodeRow where
  mnemonic : Mnemonic
  pattern  : PortWord
  mask     : PortWord
  deriving DecidableEq, Repr

end Sys2Proof
end

