-- ==== Sys2Proof/WellFormed.lean ====
section
/-! DEFINITION. When a raw request is well formed (30_encoding.md R65, R67, R74), one check for each kind of malformation.
The machine does not call these checks: Decode.lean makes its own from R73, and a law under Laws/ says that the two agree. -/

namespace Sys2Proof.Request

/-- `op` is one of the eight operations, not reserved (R66, R74). -/
def opDefined (q : Request) : Bool := q.op.toNat < 8

/-- `REQ[35:33]` is zero (R63). -/
def mbzClear (q : Request) : Bool := q.mbz = 0

/-- `S` may be 1 only when `op` is DEC (1) or PCHK (3) (R65). -/
def strictAllowed (q : Request) : Bool := !q.strict || q.op.toNat = 1 || q.op.toNat = 3

/-- The operand bits above the typed operand are zero: 31:24 for ENC (0) and PGEN (2), 31:26 for DEC and PCHK (R67). -/
def operandFits (q : Request) : Bool :=
  if q.op.toNat = 0 ∨ q.op.toNat = 2 then q.opnd.toNat < 2 ^ 24
  else if q.op.toNat = 1 ∨ q.op.toNat = 3 then q.opnd.toNat < 2 ^ 26
  else true

/-- A well-formed request: none of R74's four malformations. -/
def wellFormed (q : Request) : Bool :=
  q.opDefined && q.mbzClear && q.strictAllowed && q.operandFits

end Sys2Proof.Request
end

