-- ==== Sys2Proof/Decode.lean ====
section
/-! DEFINITION. Decoding a request word, total on all 2^40 of them and refusing by name (30_encoding.md R63 to R67, R73, R74),
then the encoder, and R75's table of match and mask. -/

namespace Sys2Proof

/-! ### The fields of the request word (R63) -/

/-- `REQ[39:36]`, `REQ[35:33]`, `REQ[32]`, `REQ[31:0]` (R63). -/
def Request.ofWord (r : PortWord) : Request where
  op     := r.extractLsb' 36 4
  mbz    := r.extractLsb' 33 3
  strict := r.getLsbD 32
  opnd   := r.extractLsb' 0 32

/-- The request word with the given fields, each at its bits (R63). -/
def Request.toWord (q : Request) : PortWord :=
  q.op.setWidth 40 <<< 36 ||| q.mbz.setWidth 40 <<< 33 ||| (BitVec.ofBool q.strict).setWidth 40 <<< 32
    ||| q.opnd.setWidth 40

/-! ### The operation table (R66) -/

/-- The op number of a mnemonic (R66). -/
def Mnemonic.code : Mnemonic → BitVec 4
  | .ENC => 0 | .DEC => 1 | .PGEN => 2 | .PCHK => 3 | .POPC => 4 | .WCHK => 5 | .FCHK => 6 | .CCHK => 7

/-- The mnemonic an op number selects; none for the reserved numbers 8 to 15 (R66, R74). -/
def Mnemonic.ofCode (op : BitVec 4) : Option Mnemonic :=
  match op.toNat with
  | 0 => some .ENC | 1 => some .DEC | 2 => some .PGEN | 3 => some .PCHK
  | 4 => some .POPC | 5 => some .WCHK | 6 => some .FCHK | 7 => some .CCHK
  | _ => none

/-- The operand format of an operation (R66). -/
def Mnemonic.format : Mnemonic → Format
  | .ENC => .FC | .DEC => .W | .PGEN => .P | .PCHK => .W | .POPC => .V | .WCHK => .V | .FCHK => .V | .CCHK => .V

/-- Only format W has a strict bit; in every other format `S` must be zero (R65, R67). -/
def Format.hasStrict : Format → Bool
  | .W => true
  | .FC | .P | .V => false

/-- Some must-be-zero operand bit of the format is set (R67). -/
def Format.operandBad : Format → U32 → Bool
  | .FC, opnd => opnd.extractLsb' 24 8 ≠ 0
  | .P,  opnd => opnd.extractLsb' 24 8 ≠ 0
  | .W,  opnd => opnd.extractLsb' 26 6 ≠ 0
  | .V,  _    => false

/-- The operation with its typed operands, by plain slicing of `opnd` (R67, R88, R89, R105 to R107, R121 to R123). -/
def Mnemonic.instr (m : Mnemonic) (strict : Bool) (opnd : U32) : Instr :=
  match m with
  | .ENC  => .enc (opnd.extractLsb' 16 8) (opnd.extractLsb' 0 16)
  | .DEC  => .dec strict (opnd.extractLsb' 0 26)
  | .PGEN => .pgen (opnd.extractLsb' 0 24)
  | .PCHK => .pchk strict (opnd.extractLsb' 0 26)
  | .POPC => .popc opnd
  | .WCHK => .wchk opnd
  | .FCHK => .fchk opnd
  | .CCHK => .cchk opnd

/-! ### The decoder (R73 steps 1 to 4) -/

/-- Decoding the fields of a request: the first of R73's steps 1 to 4 that applies refuses it by name. -/
def decodeRequest (q : Request) : Except Malformation Instr :=
  match Mnemonic.ofCode q.op with
  | none => .error .reservedOp
  | some m =>
    if q.mbz ≠ 0 then .error .mustBeZero
    else if q.strict && !m.format.hasStrict then .error .strictNotAllowed
    else if m.format.operandBad q.opnd then .error .operandMustBeZero
    else .ok (m.instr q.strict q.opnd)

/-- Decoding a request word; no length rule and no mode (R64). -/
def decode (r : PortWord) : Except Malformation Instr :=
  decodeRequest (Request.ofWord r)

/-! ### The encoder (R63, R66, R67) -/

/-- The mnemonic of an operation. -/
def Instr.mnemonic : Instr → Mnemonic
  | .enc _ _ => .ENC | .dec _ _ => .DEC | .pgen _ => .PGEN | .pchk _ _ => .PCHK
  | .popc _ => .POPC | .wchk _ => .WCHK | .fchk _ => .FCHK | .cchk _ => .CCHK

/-- The bit `S` of an operation's request (R65). -/
def Instr.strictBit : Instr → Bool
  | .dec strict _ | .pchk strict _ => strict
  | .enc _ _ | .pgen _ | .popc _ | .wchk _ | .fchk _ | .cchk _ => false

/-- The operand field of an operation's request, must-be-zero bits zero (R67). -/
def Instr.opnd : Instr → U32
  | .enc facility card => facility.setWidth 32 <<< 16 ||| card.setWidth 32
  | .dec _ word | .pchk _ word => word.setWidth 32
  | .pgen payload => payload.setWidth 32
  | .popc v | .wchk v | .fchk v | .cchk v => v

/-- The fields of an operation's request word. -/
def Instr.request (i : Instr) : Request where
  op     := i.mnemonic.code
  mbz    := 0
  strict := i.strictBit
  opnd   := i.opnd

/-- The request word of an operation. -/
def encode (i : Instr) : PortWord := i.request.toWord

/-! ### Match and mask (R75) -/

/-- R75's table, row by row. -/
def opcodeRows : List OpcodeRow :=
  [⟨.ENC,  0x0000000000, 0xFFFF000000⟩,
   ⟨.DEC,  0x1000000000, 0xFEFC000000⟩,
   ⟨.PGEN, 0x2000000000, 0xFFFF000000⟩,
   ⟨.PCHK, 0x3000000000, 0xFEFC000000⟩,
   ⟨.POPC, 0x4000000000, 0xFF00000000⟩,
   ⟨.WCHK, 0x5000000000, 0xFF00000000⟩,
   ⟨.FCHK, 0x6000000000, 0xFF00000000⟩,
   ⟨.CCHK, 0x7000000000, 0xFF00000000⟩]

/-- A request word selects a row when it agrees with the row's pattern under its mask (R75). -/
def OpcodeRow.selects (row : OpcodeRow) (r : PortWord) : Bool :=
  r &&& row.mask = row.pattern

/-! ### The host's entry point -/

/-- The operation the decoder reads from the bits `w`, numbered as spec/opcode_table.json numbers them: that is the
numbering of the 40-bit request word itself, whose bit 0 is its least significant bit (R10, R63). A number of more than
40 bits is no request word (log entry 11). -/
def decodeTableWord (_nbits w : Nat) : Option Instr :=
  if w < 2 ^ 40 then
    match decode (BitVec.ofNat 40 w) with
    | .ok i => some i
    | .error _ => none
  else none

end Sys2Proof
end

