-- ==== Sys2Proof/Machine/Response.lean ====
section
/-! DEFINITION. The response word and the errors (30_encoding.md R68 to R70, 60_exceptions.md R165, R166, R170). -/

namespace Sys2Proof.Machine

/-- The status kinds (R165). Codes 6 to 15 are unused and no response carries them, so they have no constructor (X6). -/
inductive Status where
  | ok | emptyInput | invalidFormat | outOfRange | parityCheckFailed | illegalRequest
  deriving DecidableEq, Repr

/-- What an error is about (R166). -/
inductive FieldId where
  | none | word | facility | card | parity | request
  deriving DecidableEq, Repr

/-- The status number (R165). -/
def Status.code : Status → BitVec 4
  | .ok => 0 | .emptyInput => 1 | .invalidFormat => 2 | .outOfRange => 3 | .parityCheckFailed => 4 | .illegalRequest => 5

/-- The field number (R166). -/
def FieldId.code : FieldId → BitVec 4
  | .none => 0 | .word => 1 | .facility => 2 | .card => 3 | .parity => 4 | .request => 5

/-- A raised error: the pair that names the violated constraint (R70, R166). -/
structure Failure where
  status : Status
  field  : FieldId
  deriving DecidableEq, Repr

/-- "value at most 0x3FFFFFF" is violated (R169). -/
def Failure.outOfRangeWord : Failure := ⟨.outOfRange, .word⟩
/-- "value at most 255" is violated (R169). -/
def Failure.outOfRangeFacility : Failure := ⟨.outOfRange, .facility⟩
/-- "value at most 65535" is violated (R169). -/
def Failure.outOfRangeCard : Failure := ⟨.outOfRange, .card⟩
/-- "both actual parity bits equal the expected ones" is violated (R171). -/
def Failure.parityCheckFailed : Failure := ⟨.parityCheckFailed, .parity⟩
/-- "a well-formed request word" is violated (R172). -/
def Failure.illegalRequest : Failure := ⟨.illegalRequest, .request⟩
/-- "not absent, empty or all whitespace" is violated; host text only (R167). -/
def Failure.emptyFacility : Failure := ⟨.emptyInput, .facility⟩
/-- "optional FC prefix then one or more digits that parse as an integer" is violated; host text only (R168). -/
def Failure.badFacility : Failure := ⟨.invalidFormat, .facility⟩
/-- "1 to 8 hex digits" is violated; host text only (R168). -/
def Failure.badWord : Failure := ⟨.invalidFormat, .word⟩

/-- The fields of a response (R68). -/
structure Response where
  status : Status
  field  : FieldId
  result : U32
  deriving DecidableEq, Repr

/-- The 40-bit response word, each field at its bits (R68). -/
def Response.pack (r : Response) : PortWord :=
  r.status.code.setWidth 40 <<< 36 ||| r.field.code.setWidth 40 <<< 32 ||| r.result.setWidth 40

/-- `return OK(r)`: status 0, field 0, the result widened with zeros (R12). -/
def Response.ok {n : Nat} (r : BitVec n) : Response := ⟨.ok, .none, r.setWidth 32⟩

/-- `raise <Error>(<FIELD>)`: the code, the field and a zero result, nothing else (R12, R170). -/
def Response.raise (e : Failure) : Response := ⟨e.status, e.field, 0⟩

/-- How an operation ends: with a result or with an error. -/
def Response.ofResult {n : Nat} : Except Failure (BitVec n) → Response
  | .ok r    => .ok r
  | .error e => .raise e

/-! ### What the host reads on the response port (R68) -/

/-- `RSP[39:36]`. -/
def rspStatus (w : PortWord) : BitVec 4 := w.extractLsb' 36 4
/-- `RSP[35:32]`. -/
def rspField (w : PortWord) : BitVec 4 := w.extractLsb' 32 4
/-- `RSP[31:0]`. -/
def rspResult (w : PortWord) : U32 := w.extractLsb' 0 32

end Sys2Proof.Machine
end

