-- ==== Sys2Proof/Machine/State.lean ====
section
/-! DEFINITION. The state. The block itself holds none between requests (10_state.md R25, R34); what a run consists of is
the value on the request port, the request words the host has still to drive, and the list of (request, response) pairs
(00_scope.md R15, 70_reset_and_hazards.md R198). The response port is no stored value (R32, R34): it is the view
`State.rsp` of Machine/Port.lean. -/

namespace Sys2Proof.Machine

/-- One transaction: the request word driven and the response word read (R32, R72). -/
structure Transaction where
  req : PortWord
  rsp : PortWord
  deriving DecidableEq, Repr

/-- Nothing in the block or in the model faults: 93_implementation_defined.md section 2 says that no behaviour has the
treatment `fault`, `stuck` or `any value` inside the hardware, so this type has no constructor. -/
inductive Fault where
  deriving DecidableEq, Repr

/-- A step without a meaning. -/
inductive Refusal where
  /-- Raised by an arm of Machine/Dispatch.lean whose operation has no meaning yet; no arm raises it now. Safe: nothing
  can be proved of what such an operation computes. -/
  | notModelled (mnemonic : String)
  deriving DecidableEq, Repr

/-- The state of a run. -/
structure State where
  /-- The value on the 40-bit input port `req`, which the host drives (R32). -/
  req     : PortWord
  /-- The request words the host will drive after it, in order; the run's finite list of requests (R198). -/
  pending : List PortWord
  /-- The (request, response) pairs so far, oldest first: the final observable of a run (R15, R198). It is the host's
  record; no operation reads it (R25; log entry 4). -/
  trace   : List Transaction
  deriving DecidableEq, Repr

/-- Right after reset: the block has no reset and nothing to reset (R190), nothing has been transacted and the host has
nothing queued. The port carries the all-zero word, R191's "should an integrator's reset drive `req` to 0"
(DESIGN CHOICE, log entry 1). -/
def State.reset : State where
  req     := 0
  pending := []
  trace   := []

end Sys2Proof.Machine
end

