-- ==== Sys2Proof/Machine/Ops.lean ====
section
/-! DEFINITION. The operations every meaning shares: recording a transaction, ending an operation with a result or an
error, answering a malformed request, and the host's part of a step. -/

namespace Sys2Proof.Machine

/-- The transaction (request, response) is added to the record; nothing else changes (R25, R43). -/
def State.record (request : PortWord) (r : Response) (s : State) : State :=
  { s with trace := s.trace ++ [⟨request, r.pack⟩] }

/-- The host drives `request` on the port `req` (R32). -/
def State.drive (request : PortWord) (s : State) : State := { s with req := request }

/-- The host drives its next request word; with none left the port keeps the value it carries (R195, R198;
log entry 2). -/
def State.presentNext (s : State) : State :=
  match s.pending with
  | []      => s
  | r :: rs => { s with req := r, pending := rs }

/-- An operation ends: `return OK(r)`, or `raise`, which is this block's whole taking of an exception. The error is the
response and no control is transferred (R12, R170, R175); the block is afterwards as it was before (R177). -/
def finish {n : Nat} (i : Instr) (result : Except Failure (BitVec n)) (s : State) :
    Host.Outcome State Fault Refusal :=
  .next (s.record (encode i) (Response.ofResult result))

/-- A malformed request answers IllegalRequest(REQUEST) and computes nothing (R67, R73, R74, R172; log entry 3). -/
def answerIllegal (s : State) : Host.Outcome State Fault Refusal :=
  .next (s.record s.req (Response.raise Failure.illegalRequest))

/-- After the transaction the host goes on to its next request word. -/
def thenPresentNext : Host.Outcome State Fault Refusal → Host.Outcome State Fault Refusal
  | .next s    => .next s.presentNext
  | .fault r   => .fault r
  | .refused r => .refused r

end Sys2Proof.Machine
end

