-- ==== Sys2Proof/Machine/Codec.lean ====
section
/-! DEFINITION. The codec family: the pure functions of 40_codec.md R86 and R87, and the operations ENC (R88) and DEC (R89). -/

namespace Sys2Proof.Machine

/-- `encode(facility, card)`: total once its arguments are in range (R86). -/
def codecEncode (facility : FacilityCode) (card : CardNumber) : Word26 :=
  let payload := mkpayload facility card
  assemble (p1Expected payload) payload (p2Expected payload)

/-- What `decode` yields (R87). -/
structure Decoded where
  facility : FacilityCode
  card     : CardNumber
  parityOk : ParityBit
  deriving DecidableEq, Repr

/-- `decode(word)`: defined on all words; a word of wrong parity still yields its facility and card (R87). -/
def codecDecode (word : Word26) : Decoded where
  facility := facilityOf (payloadOf word)
  card     := cardOf (payloadOf word)
  parityOk := parityOk word

/-- ENC's result (R88). -/
def opEnc (facility : FacilityCode) (card : CardNumber) : Except Failure Word26 :=
  .ok (codecEncode facility card)

/-- DEC's result, parityOk at bit 24, facility at 23:16, card at 15:0; under strict validation a parity mismatch raises
instead (R71, R89). -/
def opDec (strict : Bool) (word : Word26) : Except Failure U32 :=
  let d := codecDecode word
  if strict ∧ d.parityOk = 0 then .error .parityCheckFailed
  else .ok (d.parityOk.setWidth 32 <<< 24 ||| d.facility.setWidth 32 <<< 16 ||| d.card.setWidth 32)

/-- ENC: encode a facility code and a card number into a word (R88). -/
def execEnc (facility : FacilityCode) (card : CardNumber) (s : State) : Host.Outcome State Fault Refusal :=
  finish (.enc facility card) (opEnc facility card) s

/-- DEC and DEC.S: decode a word into facility code, card number and parity validity (R89). -/
def execDec (strict : Bool) (word : Word26) (s : State) : Host.Outcome State Fault Refusal :=
  finish (.dec strict word) (opDec strict word) s

end Sys2Proof.Machine
end

