-- ==== Sys2Proof/Machine/Parity.lean ====
section
/-! DEFINITION. The parity family: PGEN (41_parity.md R106), PCHK (R107) and POPC (R105). -/

namespace Sys2Proof.Machine

/-- PGEN's result: expected P1 at bit 25, expected P2 at bit 0 (R106). -/
def opPgen (payload : Payload24) : Except Failure Word26 :=
  .ok ((p1Expected payload).setWidth 26 <<< 25 ||| (p2Expected payload).setWidth 26)

/-- PCHK's result `(e2 << 4) | (a2 << 3) | (e1 << 2) | (a1 << 1) | ok`; under strict validation a mismatch raises instead (R107). -/
def opPchk (strict : Bool) (word : Word26) : Except Failure U32 :=
  let c := parityCheck word
  if strict ∧ c.ok = 0 then .error .parityCheckFailed
  else .ok (c.e2.setWidth 32 <<< 4 ||| c.a2.setWidth 32 <<< 3 ||| c.e1.setWidth 32 <<< 2 ||| c.a1.setWidth 32 <<< 1
    ||| c.ok.setWidth 32)

/-- POPC's result: the count, of the unmasked operand (R105). -/
def opPopc (value : U32) : Except Failure (BitVec 6) :=
  .ok (popcount value)

/-- PGEN: generate the two expected parity bits of a payload (R106). -/
def execPgen (payload : Payload24) (s : State) : Host.Outcome State Fault Refusal :=
  finish (.pgen payload) (opPgen payload) s

/-- PCHK and PCHK.S: the parity_check_unit as an operation (R107). -/
def execPchk (strict : Bool) (word : Word26) (s : State) : Host.Outcome State Fault Refusal :=
  finish (.pchk strict word) (opPchk strict word) s

/-- POPC: count the 1 bits of a 32-bit value (R105). -/
def execPopc (value : U32) (s : State) : Host.Outcome State Fault Refusal :=
  finish (.popc value) (opPopc value) s

end Sys2Proof.Machine
end

