-- ==== Sys2Proof/Machine/Range.lean ====
section
/-! DEFINITION. The range-check family: WCHK (42_range.md R121), FCHK (R122) and CCHK (R123), over the bounds of R120. -/

namespace Sys2Proof.Machine

/-- The greatest word, 67108863 (R7, R120). -/
def wordMax : U32 := 0x3FFFFFF
/-- The greatest facility code (R7, R120). -/
def facilityMax : U32 := 255
/-- The greatest card number (R7, R120). -/
def cardMax : U32 := 65535

/-- Admit a raw unsigned value under a bound, or fail; an admitted value is returned unchanged (R120, R124). -/
def checkBound (bound : U32) (e : Failure) (value : U32) : Except Failure U32 :=
  if bound < value then .error e else .ok value

/-- WCHK's result (R121). -/
def opWchk (value : U32) : Except Failure U32 := checkBound wordMax .outOfRangeWord value

/-- FCHK's result (R122). -/
def opFchk (value : U32) : Except Failure U32 := checkBound facilityMax .outOfRangeFacility value

/-- CCHK's result (R123). -/
def opCchk (value : U32) : Except Failure U32 := checkBound cardMax .outOfRangeCard value

/-- WCHK: admit a 32-bit value as a word (R121). -/
def execWchk (value : U32) (s : State) : Host.Outcome State Fault Refusal :=
  finish (.wchk value) (opWchk value) s

/-- FCHK: admit a 32-bit value as a facility code (R122). -/
def execFchk (value : U32) (s : State) : Host.Outcome State Fault Refusal :=
  finish (.fchk value) (opFchk value) s

/-- CCHK: admit a 32-bit value as a card number (R123). -/
def execCchk (value : U32) (s : State) : Host.Outcome State Fault Refusal :=
  finish (.cchk value) (opCchk value) s

end Sys2Proof.Machine
end

