-- ==== Sys2Proof/Machine/Dispatch.lean ====
section
/-! DEFINITION. The dispatch: one arm per operation of 30_encoding.md R66 (R73 step 5). -/

namespace Sys2Proof.Machine

def exec (i : Instr) (s : State) : Host.Outcome State Fault Refusal :=
  match i with
  | .enc facility card => Sys2Proof.Machine.execEnc facility card s
  | .dec strict word => Sys2Proof.Machine.execDec strict word s
  | .pgen payload => Sys2Proof.Machine.execPgen payload s
  | .pchk strict word => Sys2Proof.Machine.execPchk strict word s
  | .popc value => Sys2Proof.Machine.execPopc value s
  | .wchk value => Sys2Proof.Machine.execWchk value s
  | .fchk value => Sys2Proof.Machine.execFchk value s
  | .cchk value => Sys2Proof.Machine.execCchk value s

end Sys2Proof.Machine
end

