-- ==== Sys2Proof/Machine/Step.lean ====
section
/-! DEFINITION. One step: one transaction (00_scope.md R14, 30_encoding.md R72, 70_reset_and_hazards.md R197). -/

namespace Sys2Proof.Machine

/-- The block answers the request word on its port: the operation it decodes to runs, a malformed request is answered
IllegalRequest (R73); then the host drives its next request word (R198). -/
def step (s : State) : Host.Outcome State Fault Refusal :=
  match decode s.req with
  | .ok i    => thenPresentNext (exec i s)
  | .error _ => thenPresentNext (answerIllegal s)

/-- The state with the request word `w` driven on the port, where the next step reads it. The block fetches nothing
(R27): the host chooses every request word (log entry 2). -/
def State.withFetchWord (s : State) (_nbits w : Nat) : State :=
  s.drive (BitVec.ofNat 40 w)

end Sys2Proof.Machine
end

