-- ==== Sys2Proof/Config.lean ====
section
/-! DEFINITION. What an implementation fixes and the spec leaves open: the three host-layer parameters of 00_scope.md R9.
No hardware operation reads them (R9), so they are arguments of the host text functions that need them and no part of
State; a claim holds for every admitted value (log entry 7). -/

namespace Sys2Proof.Config

/-- `IS_WS`: any predicate true of U+0020 and false of every ASCII letter and digit (R9). -/
def AdmittedIsWs (isWs : Char → Bool) : Prop :=
  isWs ' ' = true ∧ ∀ c : Char, c.isAlphanum = true → isWs c = false

/-- `INT_PARSE_MAX`: a natural number at least 256, or infinity (`none`) (R9, 90_conflicts.md C8). -/
def AdmittedIntParseMax (intParseMax : Option Nat) : Prop :=
  ∀ m, intParseMax = some m → 256 ≤ m

end Sys2Proof.Config
end

