-- ==== Sys2Proof/Machine/HostText.lean ====
section
/-! DEFINITION. The host-layer text functions: parsing (43_host_text.md R135 to R140) and rendering (R141, R142).
They have no request encoding and stand outside the block (00_scope.md R5). An absent text is `none` (R135).
A character is a Unicode scalar value (log entry 6). -/

namespace Sys2Proof.Machine

/-! ### Characters (R135) -/

/-- A decimal digit: one of the ten characters `0` to `9`, none of another script (R135). -/
def isDecimal (c : Char) : Bool := 48 ≤ c.toNat && c.toNat ≤ 57

/-- The value of a decimal digit. -/
def decimalValue (c : Char) : Nat := c.toNat - 48

/-- The value of a hex digit, one of 22 characters, case-insensitive (R135). -/
def hexValue? (c : Char) : Option Nat :=
  let n := c.toNat
  if 48 ≤ n ∧ n ≤ 57 then some (n - 48)
  else if 97 ≤ n ∧ n ≤ 102 then some (n - 97 + 10)
  else if 65 ≤ n ∧ n ≤ 70 then some (n - 65 + 10)
  else none

/-- One of the 22 hex digits (R135). -/
def isHexDigit (c : Char) : Bool := (hexValue? c).isSome

/-- The value of the hex digits of a text, first character most significant (R136 step 2). -/
def hexNumber (t : Text) : Nat := t.foldl (fun n c => 16 * n + (hexValue? c).getD 0) 0

/-- The value of the decimal digits of a text, first digit most significant (R139 step 4). -/
def decimalNumber (t : Text) : Nat := t.foldl (fun n c => 10 * n + decimalValue c) 0

/-! ### Values admitted by the range operations -/

/-- The word WCHK admits (R121, R138: ParseWord26FromDecimal is WCHK). -/
def parseWord26FromDecimal (v : U32) : Except Failure Word26 := (opWchk v).map (·.setWidth 26)

/-- The card number CCHK admits (R123, R140). -/
def admitCard (v : U32) : Except Failure CardNumber := (opCchk v).map (·.setWidth 16)

/-! ### Parsing -/

/-- `ParseWord26FromHex` (R136; an empty, absent or over-long text, a sign, a space and "0x" are InvalidFormat,
92_eei_decisions.md D22, log entry 9). -/
def parseWord26FromHex : Option Text → Except Failure Word26
  | none => .error .badWord
  | some t =>
    if t.length = 0 ∨ 8 < t.length ∨ t.all isHexDigit = false then .error .badWord
    else parseWord26FromDecimal (BitVec.ofNat 32 (hexNumber t))

/-- A text with its leading and trailing `isWs` characters removed (R139 step 2). -/
def trimWs (isWs : Char → Bool) (t : Text) : Text :=
  ((t.dropWhile isWs).reverse.dropWhile isWs).reverse

/-- The text after an optional case-insensitive "FC" (R139 step 3). -/
def dropFc : Text → Text
  | a :: b :: rest => if (a = 'F' ∨ a = 'f') ∧ (b = 'C' ∨ b = 'c') then rest else a :: b :: rest
  | t => t

/-- `n > INT_PARSE_MAX`, where no bound is infinity (R9, R139 step 5). -/
def exceedsParseMax (intParseMax : Option Nat) (n : Nat) : Bool :=
  match intParseMax with
  | none => false
  | some m => m < n

/-- `ParseFacilityText`, in the order of its six tests (R139). The first three arguments are the open parameters of
R9. -/
def parseFacilityText (isWs : Char → Bool) (facTrim : Bool) (intParseMax : Option Nat) :
    Option Text → Except Failure FacilityCode
  | none => .error .emptyFacility
  | some text =>
    if text.all isWs then .error .emptyFacility
    else
      let t := if facTrim then trimWs isWs text else text
      let digits := dropFc t
      if digits = [] ∨ digits.all isDecimal = false then .error .badFacility
      else
        let n := decimalNumber digits
        if exceedsParseMax intParseMax n then .error .badFacility
        else if 255 < n then .error .outOfRangeFacility
        else .ok (BitVec.ofNat 8 n)

/-! ### Rendering -/

/-- The `d`-th character of the sixteen hex digits in lower or upper case (R141). -/
def hexChar (uppercase : Bool) (d : BitVec 4) : Char :=
  let letter := if uppercase then 65 else 97
  if d.toNat < 10 then Char.ofNat (48 + d.toNat) else Char.ofNat (letter + (d.toNat - 10))

/-- `RenderHex`: exactly 8 characters, character `i` from bits `31 - 4*i : 28 - 4*i` (R141). -/
def renderHex (word : Word26) (uppercase : Bool) : Text :=
  (List.range 8).map fun i => hexChar uppercase ((word.setWidth 32).extractLsb' (28 - 4 * i) 4)

/-- `RenderBinary`: exactly 26 characters, most significant bit first (R142). -/
def renderBinary (word : Word26) : Text :=
  (List.range 26).map fun i => if word.getLsbD (25 - i) then '1' else '0'

end Sys2Proof.Machine
end

