-- ==== Sys2Proof/Machine/Convert.lean ====
section
/-! DEFINITION. The conversion dispatch of the host layer (43_host_text.md R143 to R149). -/

namespace Sys2Proof.Machine

/-- The three input forms; exactly one is supplied (R143). -/
inductive ConvertInput where
  | fromHex (text : Option Text)
  | fromDecimal (v : U32)
  | fromFacilityCard (facilityText : Option Text) (card : U32)
  deriving DecidableEq, Repr

/-- The tag of the input form; it has no numeric encoding (R143, R144). -/
inductive InputTag where
  | fromHex | fromDecimal | fromFacilityCard
  deriving DecidableEq, Repr

/-- The four toggles, arguments of each call and stored nowhere, all off by default (R31, R149). -/
structure Toggles where
  uppercase     : Bool := false
  rawHex        : Bool := false
  includeBinary : Bool := false
  strict        : Bool := false
  deriving DecidableEq, Repr

/-- The output aggregate (R144). -/
structure ConversionResult where
  hex      : Text
  decimal  : Word26
  facility : FacilityCode
  card     : CardNumber
  parityOk : Bool
  tag      : InputTag
  binary   : Option Text
  deriving DecidableEq, Repr

/-- What `Convert` returns: the aggregate, or the bare hex text under raw-hex mode (R145, R148). -/
inductive ConvertOutput where
  | bareHex (hex : Text)
  | aggregate (result : ConversionResult)
  deriving DecidableEq, Repr

/-- The form of an input (R143). -/
def ConvertInput.tag : ConvertInput → InputTag
  | .fromHex _ => .fromHex
  | .fromDecimal _ => .fromDecimal
  | .fromFacilityCard _ _ => .fromFacilityCard

/-- The word of an input; the facility text is checked before the card number (R145, R174;
log entry 8). -/
def inputWord (isWs : Char → Bool) (facTrim : Bool) (intParseMax : Option Nat) :
    ConvertInput → Except Failure Word26
  | .fromHex text => parseWord26FromHex text
  | .fromDecimal v => parseWord26FromDecimal v
  | .fromFacilityCard text v =>
    match parseFacilityText isWs facTrim intParseMax text with
    | .error e => .error e
    | .ok f =>
      match admitCard v with
      | .error e => .error e
      | .ok c => .ok (codecEncode f c)

/-- The steps of `Convert` after the word is known: the strict test, then rendering (R145, R147, R148).
Strict validation applies in raw-hex mode too (log entry 10). -/
def outputWord (tag : InputTag) (toggles : Toggles) (word : Word26) : Except Failure ConvertOutput :=
  let d := codecDecode word
  if toggles.strict ∧ d.parityOk = 0 then .error .parityCheckFailed
  else
    let hex := renderHex word toggles.uppercase
    if toggles.rawHex then .ok (.bareHex hex)
    else .ok (.aggregate {
      hex, decimal := word, facility := d.facility, card := d.card, parityOk := d.parityOk = 1, tag,
      binary := if toggles.includeBinary then some (renderBinary word) else none })

/-- `Convert` (R145): an error of a step ends it with that error. -/
def convert (isWs : Char → Bool) (facTrim : Bool) (intParseMax : Option Nat)
    (input : ConvertInput) (toggles : Toggles) : Except Failure ConvertOutput :=
  match inputWord isWs facTrim intParseMax input with
  | .error e => .error e
  | .ok word => outputWord input.tag toggles word

end Sys2Proof.Machine
end

