-- ==== Sys2Proof/Machine/Port.lean ====
section
/-! DEFINITION. The response port (10_state.md R32): R73's function `exec : u40 -> u40` transcribed over the raw request
word, step by step and without the decoder. That the decoding machine answers the same is a statement, not a definition. -/

namespace Sys2Proof.Machine

/-- How `exec(REQ)` of R73 ends: total, and the first step that applies ends it. -/
def answer (REQ : PortWord) : Response :=
  let op   := (REQ.extractLsb' 36 4).toNat
  let S    := REQ.getLsbD 32
  let opnd := REQ.extractLsb' 0 32
  if 8 ≤ op then .raise .illegalRequest
  else if REQ.extractLsb' 33 3 ≠ 0 then .raise .illegalRequest
  else if S ∧ op ≠ 1 ∧ op ≠ 3 then .raise .illegalRequest
  else if (op = 0 ∨ op = 2) ∧ opnd.extractLsb' 24 8 ≠ 0 then .raise .illegalRequest
  else if (op = 1 ∨ op = 3) ∧ opnd.extractLsb' 26 6 ≠ 0 then .raise .illegalRequest
  else match op with
    | 0 => .ofResult (opEnc (opnd.extractLsb' 16 8) (opnd.extractLsb' 0 16))
    | 1 => .ofResult (opDec S (opnd.extractLsb' 0 26))
    | 2 => .ofResult (opPgen (opnd.extractLsb' 0 24))
    | 3 => .ofResult (opPchk S (opnd.extractLsb' 0 26))
    | 4 => .ofResult (opPopc opnd)
    | 5 => .ofResult (opWchk opnd)
    | 6 => .ofResult (opFchk opnd)
    | _ => .ofResult (opCchk opnd)

/-- `exec(REQ)` of R73: every one of the 2^40 request words has exactly one response word. -/
def respond (REQ : PortWord) : PortWord := (answer REQ).pack

/-- The value on the output port `rsp`: at every instant `exec(req)`, never a stored value (R32, R34). -/
def State.rsp (s : State) : PortWord := respond s.req

end Sys2Proof.Machine
end

