-- ==== Sys2Proof/Machine/Program.lean ====
section
/-! DEFINITION. Programs: the host's side of a run, in the notation of 30_encoding.md R76, with the pseudo-instructions of
R77. The host drives a request word, lets the block take one step, reads the response port, and stops at the first
response whose status is not 0 (60_exceptions.md R175, 70_reset_and_hazards.md R198). Names and expressions are the
host's; the block sees request words only. -/

namespace Sys2Proof.Machine

/-- A host-side name, by a number (R26, R76; log entry 5). -/
abbrev Name := Nat

/-- The host's bindings, newest first (R76). -/
abbrev Bindings := List (Name × U32)

/-- Host-side expressions, computed in 32 bits (R76). -/
inductive Expr where
  | lit (v : U32)
  | name (n : Name)
  | slice (n : Name) (h l : Nat)
  | shl (e : Expr) (k : Nat)
  | or (a b : Expr)
  | and (a b : Expr)
  | xor (a b : Expr)
  deriving DecidableEq, Repr

/-- `name <- MNEMONIC expr`, with `.S` when strict (R76). -/
structure Line where
  name     : Name
  mnemonic : Mnemonic
  strict   : Bool
  expr     : Expr
  deriving DecidableEq, Repr

/-- The four pseudo-instructions; `convd` with `strict` is CONVD.S (R77). -/
inductive Pseudo where
  | encfc (w : Name) (fv cv : Expr)
  | convfc (r : Name) (fv cv : Expr)
  | convd (strict : Bool) (r : Name) (v : Expr)
  deriving DecidableEq, Repr

/-- How a program ended: after its last line, at a failing response, or at a line that names a value no earlier line
bound, which is no line of the notation (R76, R198; log entry 5). -/
inductive ProgramEnd where
  | finished
  | failed (status field : BitVec 4)
  | unbound
  deriving DecidableEq, Repr

/-- The end of a program's run: its bindings, the state with the record of its transactions, and how it ended (R198). -/
structure RunResult where
  bindings : Bindings
  state    : State
  ended    : ProgramEnd
  deriving DecidableEq, Repr

/-- The value of an expression; none when a name is not bound (R76). Shifts discard bits past bit 31, slices are R11's. -/
def Expr.eval (env : Bindings) : Expr → Option U32
  | .lit v => some v
  | .name n => env.lookup n
  | .slice n h l => (env.lookup n).map fun v => (v.extractLsb' l (h - l + 1)).setWidth 32
  | .shl e k => (e.eval env).map fun v : U32 => v <<< k
  | .or a b => match a.eval env, b.eval env with | some x, some y => some (x ||| y) | _, _ => none
  | .and a b => match a.eval env, b.eval env with | some x, some y => some (x &&& y) | _, _ => none
  | .xor a b => match a.eval env, b.eval env with | some x, some y => some (x ^^^ y) | _, _ => none

/-- The line's request word `{op, 000, S, expr}` (R76). -/
def Line.request (env : Bindings) (l : Line) : Option PortWord :=
  (l.expr.eval env).map fun v =>
    Request.toWord { op := l.mnemonic.code, mbz := 0, strict := l.strict, opnd := v }

/-- The host drives a request word and the block takes its step (R32, R72). -/
def issue (r : PortWord) (s : State) : State :=
  match step (s.drive r) with
  | .next t    => t
  | .fault _   => s
  | .refused _ => s

/-- Running a program: each line's response binds its name when its status is 0 and ends the program otherwise
(R76, R175). -/
def runLines : List Line → Bindings → State → RunResult
  | [], env, s => ⟨env, s, .finished⟩
  | l :: ls, env, s =>
    match l.request env with
    | none => ⟨env, s, .unbound⟩
    | some r =>
      let rsp := (s.drive r).rsp
      if rspStatus rsp = 0 then runLines ls ((l.name, rspResult rsp) :: env) (issue r s)
      else ⟨env, issue r s, .failed (rspStatus rsp) (rspField rsp)⟩

/-! ### Which lines the notation has (R76) -/

/-- Slices lie in 32 bits and shift amounts are 0 to 31 (R76). -/
def Expr.wellFormed : Expr → Bool
  | .lit _ | .name _ => true
  | .slice _ h l => l ≤ h && h ≤ 31
  | .shl e k => e.wellFormed && k ≤ 31
  | .or a b | .and a b | .xor a b => a.wellFormed && b.wellFormed

/-- The names an expression reads. -/
def Expr.names : Expr → List Name
  | .lit _ => []
  | .name n | .slice n _ _ => [n]
  | .shl e _ => e.names
  | .or a b | .and a b | .xor a b => a.names ++ b.names

/-- Only DEC.S and PCHK.S exist, and a line reads names that earlier lines bound (R76). -/
def Line.wellFormed (bound : List Name) (l : Line) : Bool :=
  (!l.strict || l.mnemonic.format.hasStrict) && l.expr.wellFormed && l.expr.names.all (bound.contains ·)

/-- Every line is well formed after the lines before it (R76). -/
def programWellFormed : List Name → List Line → Bool
  | _, [] => true
  | bound, l :: ls => l.wellFormed bound && programWellFormed (l.name :: bound) ls

/-! ### Pseudo-instructions (R77) -/

/-- The name a pseudo-instruction binds. -/
def Pseudo.dest : Pseudo → Name
  | .encfc w _ _ => w
  | .convfc r _ _ => r
  | .convd _ r _ => r

/-- The names its operands read. -/
def Pseudo.reads : Pseudo → List Name
  | .encfc _ fv cv => fv.names ++ cv.names
  | .convfc _ fv cv => fv.names ++ cv.names
  | .convd _ _ v => v.names

/-- `ENCFC`'s three lines: the facility check precedes the card check (R77, R174). -/
def encfcLines (t1 t2 w : Name) (fv cv : Expr) : List Line :=
  [⟨t1, .FCHK, false, fv⟩,
   ⟨t2, .CCHK, false, cv⟩,
   ⟨w, .ENC, false, .or (.shl (.name t1) 16) (.name t2)⟩]

/-- The lines a pseudo-instruction expands to, with the names `t1`, `t2`, `t3` (R77). -/
def Pseudo.expand (t1 t2 t3 : Name) : Pseudo → List Line
  | .encfc w fv cv => encfcLines t1 t2 w fv cv
  | .convfc r fv cv => encfcLines t1 t2 t3 fv cv ++ [⟨r, .DEC, false, .name t3⟩]
  | .convd strict r v => [⟨t1, .WCHK, false, v⟩, ⟨r, .DEC, strict, .name t1⟩]

/-- The names are fresh: distinct, read by no operand, and not the destination. R77 asks for fresh names and does not
define the term; that no more is asked (a name may be bound by an earlier line or read by a later one) is the model's
DESIGN CHOICE (safe, log entry 13). -/
def Pseudo.Fresh (t1 t2 t3 : Name) (p : Pseudo) : Prop :=
  [t1, t2, t3].Nodup ∧ ∀ t ∈ [t1, t2, t3], t ≠ p.dest ∧ t ∉ p.reads

end Sys2Proof.Machine
end

