-- ==== Sys2Proof/Safety.lean ====
section
/-! DEFINITION. The terms the claims are stated in: the state after one recorded transaction, which requests are malformed
(30_encoding.md R74), which responses the block can produce (R69, R70), the record's two invariants, what the lines
of a program have bound, and parity read straight off the bits of a word (41_parity.md R101, R102, R104) without the
machine's own functions. -/

namespace Sys2Proof.Machine

/-- The state after one more transaction: everything but the record is as before. -/
def State.after (s : State) (req rsp : PortWord) : State :=
  { s with trace := s.trace ++ [⟨req, rsp⟩] }

/-- `REQ[39:36]` as a number (R63). -/
def opOf (r : PortWord) : Nat := r.toNat / 2 ^ 36

/-- The four malformations of R74: reserved `op`, `REQ[35:33]` not 0, `S = 1` outside DEC (1) and PCHK (3), or a
must-be-zero operand bit set: 31:24 for ENC (0) and PGEN (2), 31:26 for DEC and PCHK. -/
def Malformed (r : PortWord) : Prop :=
  8 ≤ opOf r ∨
  r.extractLsb' 33 3 ≠ 0 ∨
  (r.getLsbD 32 = true ∧ opOf r ≠ 1 ∧ opOf r ≠ 3) ∨
  ((opOf r = 0 ∨ opOf r = 2) ∧ r.extractLsb' 24 8 ≠ 0) ∨
  ((opOf r = 1 ∨ opOf r = 3) ∧ r.extractLsb' 26 6 ≠ 0)

/-- The step answers IllegalRequest, REQUEST, and the host goes on to its next request (R74, R177). -/
def AnswersIllegal (s : State) : Prop :=
  step s = .next (s.after s.req 0x5500000000).presentNext

/-- The response words the block can produce: success with field 0, or one of the five errors (R69, R70). -/
def LegalResponse (w : PortWord) : Prop :=
  (rspStatus w = 0 ∧ rspField w = 0) ∨
  w = 0x3100000000 ∨ w = 0x3200000000 ∨ w = 0x3300000000 ∨ w = 0x4400000000 ∨ w = 0x5500000000

/-- Every recorded response is the port's answer to the request recorded with it (R25, R176). -/
def TraceFaithful (s : State) : Prop := ∀ t ∈ s.trace, t.rsp = respond t.req

/-- Every recorded response is one the block can produce (R70). -/
def TraceLegal (s : State) : Prop := ∀ t ∈ s.trace, LegalResponse t.rsp

/-- The bindings after the first lines of a program were answered by the transactions `ts`: each line's own name is bound
to the result of its response, newest first, over the bindings `env` (R76; newest first is log entry 5). -/
def boundBy (ls : List Line) (ts : List Transaction) (env : Bindings) : Bindings :=
  ((ls.zip ts).map fun p => (p.1.name, rspResult p.2.rsp)).reverse ++ env

/-- The number of indexes below `n` at which a sequence of bits is 1. -/
def onesBelow : Nat → (Nat → Bool) → Nat
  | 0, _ => 0
  | n + 1, bit => onesBelow n bit + (if bit n then 1 else 0)

/-- The twelve bits from index `first` on hold an odd number of ones. -/
def oddOnes (first : Nat) (bit : Nat → Bool) : Bool :=
  onesBelow 12 (fun i => bit (first + i)) % 2 == 1

/-- P1 is even parity over `word[24:13]` and P2 is odd parity over `word[12:1]` (R62, R101, R102). -/
def parityValid (w : Word26) : Bool :=
  w.getLsbD 25 == oddOnes 13 w.getLsbD && w.getLsbD 0 == !oddOnes 1 w.getLsbD

end Sys2Proof.Machine
end

