-- ==== Sys2Proof/Certificates/Slice0/Obligations.lean ====
section
/-! DEFINITION. The statements for the provers, each with the rule of spec/ it formalises. The responses and request words
are written out from the spec's own layouts (30_encoding.md R63, R67, R68, R71), and parity is counted off the bits
(Safety.lean), so that a slip in the machine makes a statement false. -/

open Sys2Proof Sys2Proof.Machine

/-! ### Reset, decoding and the step -/

/-- R34, R190: nothing is held after reset, and both invariants of the record hold there. That the port carries 0 is the
model's own choice (log entry 1). -/
def Obligations.ResetHoldsNothing : Prop :=
  State.reset.trace = [] ∧ State.reset.pending = [] ∧ State.reset.req = 0 ∧
  TraceFaithful State.reset ∧ TraceLegal State.reset

/-- R191: the all-zero request is the well-formed ENC of facility 0 and card 0 and answers 0x0000000001. -/
def Obligations.AllZeroRequestAnswersOne : Prop :=
  decode 0 = .ok (.enc 0 0) ∧
  ∀ s : State, s.req = 0 → s.rsp = 0x0000000001 ∧ step s = .next (s.after 0 0x0000000001).presentNext

/-- R75, R78: words written out from the spec's patterns decode to the operations they stand for. -/
def Obligations.WrittenWordsDecode : Prop :=
  decode 0x0000A04F74 = .ok (.enc 160 20340) ∧
  decode 0x1003409EE9 = .ok (.dec false 0x3409EE9) ∧
  decode 0x1103409EE8 = .ok (.dec true 0x3409EE8) ∧
  decode 0x2000A04F74 = .ok (.pgen 0xA04F74) ∧
  decode 0x3003409EE9 = .ok (.pchk false 0x3409EE9) ∧
  decode 0x3101409EE9 = .ok (.pchk true 0x1409EE9) ∧
  decode 0x4080000000 = .ok (.popc 0x80000000) ∧
  decode 0x5004000000 = .ok (.wchk 0x4000000) ∧
  decode 0x60000100A0 = .ok (.fchk 0x100A0) ∧
  decode 0x7000011170 = .ok (.cchk 0x11170)

/-- R72: a step at a request word that decodes is that operation. After it the head of the host's queue, if there is one,
is on the port, and with nothing queued the port is left as it is: the queue and both clauses about the port are the
model's choice (log entry 2). -/
def Obligations.StepRunsDecodedOperation : Prop :=
  ∀ (s : State) (i : Instr), decode s.req = .ok i →
    ∃ t, exec i s = .next t ∧
      (s.pending = [] → step s = .next t) ∧
      (∀ q qs, s.pending = q :: qs → step s = .next { t with req := q, pending := qs })

/-- R27, R72: the word the host's entry point stores is the operation the next step runs. -/
def Obligations.FetchedWordRuns : Prop :=
  ∀ (s : State) (i : Instr),
    decodeTableWord 40 (encode i).toNat = some i ∧
    step (s.withFetchWord 40 (encode i).toNat) = thenPresentNext (exec i (s.drive (encode i)))

/-- R63, R67, R75: decoding what the encoder writes gives the operation back with every operand, and a word that decodes
is the one its operation encodes to, so each well-formed word has one meaning. -/
def Obligations.DecodeEncodeRoundTrip : Prop :=
  (∀ i : Instr, decode (encode i) = .ok i) ∧
  (∀ (r : PortWord) (i : Instr), decode r = .ok i → encode i = r)

/-- R75: a request selects a row of the table of match and mask exactly when it decodes to that row's operation, and one
that selects no row is illegal. -/
def Obligations.MatchMaskSelectsOperation : Prop :=
  (∀ (r : PortWord) (row : OpcodeRow), row ∈ opcodeRows →
    (r &&& row.mask = row.pattern ↔ ∃ i, decode r = .ok i ∧ i.mnemonic = row.mnemonic)) ∧
  (∀ s : State, (∀ row ∈ opcodeRows, s.req &&& row.mask ≠ row.pattern) → AnswersIllegal s)

/-- R74: exactly the requests with one of the four malformations are refused by the decoder, and all of them answer
0x5500000000 whatever the state (the answer is a next state, not a stop of the machine: log entry 3). -/
def Obligations.MalformedRequestsAnswerIllegal : Prop :=
  (∀ r : PortWord, Malformed r ↔ ∃ m, decode r = .error m) ∧
  (∀ s : State, Malformed s.req → AnswersIllegal s)

/-- R73, R32: every request word has exactly one response, that of the function transcribed from R73 over the raw word;
the decoding machine records it, never faults and never refuses. -/
def Obligations.StepAnswersAsPort : Prop :=
  ∀ s : State, step s = .next (s.after s.req s.rsp).presentNext

/-! ### State, its invariants and the independence of transactions -/

/-- R25, R43: an operation that answers records one transaction, with its own request word, and changes nothing else. -/
def Obligations.OperationsChangeOnlyTheRecord : Prop :=
  ∀ (i : Instr) (s t : State), exec i s = .next t →
    t.req = s.req ∧ t.pending = s.pending ∧ ∃ rsp, t.trace = s.trace ++ [⟨encode i, rsp⟩]

/-- R25, R176: every step keeps the record faithful, each response the port's answer to its own request. -/
def Obligations.StepKeepsTraceFaithful : Prop :=
  ∀ s t : State, TraceFaithful s → step s = .next t → TraceFaithful t

/-- R69, R70: every step keeps the record legal, each response a success with field 0 or one of the five errors. -/
def Obligations.StepKeepsTraceLegal : Prop :=
  ∀ s t : State, TraceLegal s → step s = .next t → TraceLegal t

/-- R70: the errors the hardware can produce are exactly five pairs of status and field, as five response words; each
of them is produced by some request. -/
def Obligations.ErrorResponsesAreTheFive : Prop :=
  ∀ w : PortWord, rspStatus w ≠ 0 →
    ((∃ r, respond r = w) ↔
      w = 0x3100000000 ∨ w = 0x3200000000 ∨ w = 0x3300000000 ∨ w = 0x4400000000 ∨ w = 0x5500000000)

/-- R69: a response with a status other than 0 has a field other than 0 and a zero result; with status 0 the field is 0. -/
def Obligations.ErrorResponseShape : Prop :=
  ∀ r : PortWord,
    (rspStatus (respond r) ≠ 0 → rspField (respond r) ≠ 0 ∧ rspResult (respond r) = 0) ∧
    (rspStatus (respond r) = 0 → rspField (respond r) = 0)

/-- R25: two runs that agree on the request and on nothing else get the same response. -/
def Obligations.ResponseDependsOnRequestOnly : Prop :=
  ∀ s s' : State, s.req = s'.req →
    ∃ t t' rsp, step s = .next t ∧ step s' = .next t' ∧
      t.trace = s.trace ++ [⟨s.req, rsp⟩] ∧ t'.trace = s'.trace ++ [⟨s.req, rsp⟩]

/-- R45 (b): two transactions commute, issued in either order and on two copies with unlike records. That
the second request reaches the port through the host's queue is the model's choice (log entry 2). -/
def Obligations.TransactionsCommute : Prop :=
  ∀ (a b : PortWord) (tr tr' : List Transaction), ∃ ra rb, ∃ t t' : State,
    Host.Core.run core 2 (⟨a, [b], tr⟩ : State) = .next t ∧ t.trace = tr ++ [⟨a, ra⟩, ⟨b, rb⟩] ∧
    Host.Core.run core 2 (⟨b, [a], tr'⟩ : State) = .next t' ∧ t'.trace = tr' ++ [⟨b, rb⟩, ⟨a, ra⟩]

/-- R43: presenting the same request word again gives the same response word. That with nothing queued the port still
carries that word, so that the second step repeats it, is the model's choice (log entry 2). -/
def Obligations.RepeatedRequestRepeatsResponse : Prop :=
  ∀ s : State, s.pending = [] → ∃ t u rsp, step s = .next t ∧ step t = .next u ∧ u.req = s.req ∧
    u.trace = s.trace ++ [⟨s.req, rsp⟩, ⟨s.req, rsp⟩]

/-- R197, R198: a run of the request on the port and the `n` queued behind it takes `n + 1` steps, answers each in order
by the port's function, and leaves nothing pending. That the host's queue is driven in order, one request after each
step, is the model's choice (log entry 2). -/
def Obligations.RunAnswersRequestsInOrder : Prop :=
  ∀ (r : PortWord) (rs : List PortWord) (tr : List Transaction), ∃ t : State,
    Host.Core.run core (rs.length + 1) (⟨r, rs, tr⟩ : State) = .next t ∧ t.pending = [] ∧
    t.trace = tr ++ (r :: rs).map fun q => ⟨q, respond q⟩

/-! ### The eight operations: result, completion and frame -/

/-- R88: for every facility and card ENC completes with the word that carries both at their bits and has both parity
bits right, nothing but the record changed; `S = 1` or an operand bit above 23 answers IllegalRequest. -/
def Obligations.EncAnswersWord : Prop :=
  (∀ (f : FacilityCode) (c : CardNumber) (s : State), ∃ w : Word26,
    exec (.enc f c) s = .next (s.after (f.setWidth 40 <<< 16 ||| c.setWidth 40) (w.setWidth 40)) ∧
    w.extractLsb' 17 8 = f ∧ w.extractLsb' 1 16 = c ∧ parityValid w = true) ∧
  (∀ s : State, opOf s.req = 0 → s.req.getLsbD 32 = true ∨ s.req.extractLsb' 24 8 ≠ 0 → AnswersIllegal s)

/-- R89: DEC completes on every word when not strict, and when strict on every word of valid parity, with the parity flag
at bit 24 and the two fields below it; strict on a word of wrong parity it answers ParityCheckFailed, PARITY; an operand
bit above 25 answers IllegalRequest. -/
def Obligations.DecAnswersFields : Prop :=
  (∀ (strict : Bool) (w : Word26) (s : State), strict = false ∨ parityValid w = true →
    exec (.dec strict w) s = .next (s.after
      (0x1000000000 ||| (BitVec.ofBool strict).setWidth 40 <<< 32 ||| w.setWidth 40)
      ((BitVec.ofBool (parityValid w)).setWidth 40 <<< 24 ||| (w.extractLsb' 17 8).setWidth 40 <<< 16
        ||| (w.extractLsb' 1 16).setWidth 40))) ∧
  (∀ (w : Word26) (s : State), parityValid w = false →
    exec (.dec true w) s = .next (s.after (0x1100000000 ||| w.setWidth 40) 0x4400000000)) ∧
  (∀ s : State, opOf s.req = 1 → s.req.extractLsb' 26 6 ≠ 0 → AnswersIllegal s)

/-- R106: for every payload PGEN completes with expected P1 at bit 25 and expected P2 at bit 0; `S = 1` or an operand bit
above 23 answers IllegalRequest. -/
def Obligations.PgenAnswersParityBits : Prop :=
  (∀ (p : Payload24) (s : State),
    exec (.pgen p) s = .next (s.after (0x2000000000 ||| p.setWidth 40)
      ((BitVec.ofBool (oddOnes 12 p.getLsbD)).setWidth 40 <<< 25 |||
        (BitVec.ofBool (!oddOnes 0 p.getLsbD)).setWidth 40))) ∧
  (∀ s : State, opOf s.req = 2 → s.req.getLsbD 32 = true ∨ s.req.extractLsb' 24 8 ≠ 0 → AnswersIllegal s)

/-- R107: PCHK completes as DEC does, with expected P2, actual P2, expected P1, actual P1 and the flag in bits 4 to 0;
strict on a word of wrong parity it answers ParityCheckFailed, PARITY; an operand bit above 25 answers IllegalRequest. -/
def Obligations.PchkAnswersComparison : Prop :=
  (∀ (strict : Bool) (w : Word26) (s : State), strict = false ∨ parityValid w = true →
    exec (.pchk strict w) s = .next (s.after
      (0x3000000000 ||| (BitVec.ofBool strict).setWidth 40 <<< 32 ||| w.setWidth 40)
      ((BitVec.ofBool (!oddOnes 1 w.getLsbD)).setWidth 40 <<< 4 ||| (BitVec.ofBool (w.getLsbD 0)).setWidth 40 <<< 3
        ||| (BitVec.ofBool (oddOnes 13 w.getLsbD)).setWidth 40 <<< 2
        ||| (BitVec.ofBool (w.getLsbD 25)).setWidth 40 <<< 1 ||| (BitVec.ofBool (parityValid w)).setWidth 40))) ∧
  (∀ (w : Word26) (s : State), parityValid w = false →
    exec (.pchk true w) s = .next (s.after (0x3100000000 ||| w.setWidth 40) 0x4400000000)) ∧
  (∀ s : State, opOf s.req = 3 → s.req.extractLsb' 26 6 ≠ 0 → AnswersIllegal s)

/-- R105: for every 32-bit value POPC completes with the number of its 1 bits, unmasked; `S = 1` answers
IllegalRequest. -/
def Obligations.PopcAnswersCount : Prop :=
  (∀ (v : U32) (s : State),
    exec (.popc v) s = .next (s.after (0x4000000000 ||| v.setWidth 40) (BitVec.ofNat 40 (onesBelow 32 v.getLsbD)))) ∧
  (∀ s : State, opOf s.req = 4 → s.req.getLsbD 32 = true → AnswersIllegal s)

/-- R121: WCHK completes on every value up to 67108863 and returns it unchanged; a greater value answers OutOfRange,
WORD; `S = 1` answers IllegalRequest. -/
def Obligations.WchkAdmitsWords : Prop :=
  (∀ (v : U32) (s : State), v.toNat ≤ 67108863 →
    exec (.wchk v) s = .next (s.after (0x5000000000 ||| v.setWidth 40) (v.setWidth 40))) ∧
  (∀ (v : U32) (s : State), 67108863 < v.toNat →
    exec (.wchk v) s = .next (s.after (0x5000000000 ||| v.setWidth 40) 0x3100000000)) ∧
  (∀ s : State, opOf s.req = 5 → s.req.getLsbD 32 = true → AnswersIllegal s)

/-- R122: FCHK completes on every value up to 255 and returns it unchanged; a greater value answers OutOfRange,
FACILITY; `S = 1` answers IllegalRequest. -/
def Obligations.FchkAdmitsFacilities : Prop :=
  (∀ (v : U32) (s : State), v.toNat ≤ 255 →
    exec (.fchk v) s = .next (s.after (0x6000000000 ||| v.setWidth 40) (v.setWidth 40))) ∧
  (∀ (v : U32) (s : State), 255 < v.toNat →
    exec (.fchk v) s = .next (s.after (0x6000000000 ||| v.setWidth 40) 0x3200000000)) ∧
  (∀ s : State, opOf s.req = 6 → s.req.getLsbD 32 = true → AnswersIllegal s)

/-- R123: CCHK completes on every value up to 65535 and returns it unchanged; a greater value answers OutOfRange, CARD;
`S = 1` answers IllegalRequest. -/
def Obligations.CchkAdmitsCards : Prop :=
  (∀ (v : U32) (s : State), v.toNat ≤ 65535 →
    exec (.cchk v) s = .next (s.after (0x7000000000 ||| v.setWidth 40) (v.setWidth 40))) ∧
  (∀ (v : U32) (s : State), 65535 < v.toNat →
    exec (.cchk v) s = .next (s.after (0x7000000000 ||| v.setWidth 40) 0x3300000000)) ∧
  (∀ s : State, opOf s.req = 7 → s.req.getLsbD 32 = true → AnswersIllegal s)

/-! ### Laws of the codec and the parity unit -/

/-- R82, R83, R84: extraction is slicing: `word[24:1]`, `payload[23:16]`, `payload[15:0]`, `word[25]`, `word[0]`. -/
def Obligations.ExtractionIsSlicing : Prop :=
  (∀ w : Word26, payloadOf w = w.extractLsb' 1 24 ∧ p1Of w = w.extractLsb' 25 1 ∧ p2Of w = w.extractLsb' 0 1) ∧
  (∀ p : Payload24, facilityOf p = p.extractLsb' 16 8 ∧ cardOf p = p.extractLsb' 0 16)

/-- R85: assembly and extraction are inverse bijections. -/
def Obligations.AssemblyInvertsExtraction : Prop :=
  (∀ w : Word26, assemble (p1Of w) (payloadOf w) (p2Of w) = w) ∧
  (∀ (a : ParityBit) (p : Payload24) (b : ParityBit),
    payloadOf (assemble a p b) = p ∧ p1Of (assemble a p b) = a ∧ p2Of (assemble a p b) = b) ∧
  (∀ p : Payload24, mkpayload (facilityOf p) (cardOf p) = p) ∧
  (∀ (f : FacilityCode) (c : CardNumber), facilityOf (mkpayload f c) = f ∧ cardOf (mkpayload f c) = c)

/-- R90: what ENC answers for a payload, DEC answers back as `(1 << 24) | p`, with `S = 0` and with `S = 1`. -/
def Obligations.DecodeOfEncodeRoundTrip : Prop :=
  ∀ (f : FacilityCode) (c : CardNumber) (strict : Bool) (s s' : State), ∃ w : Word26,
    exec (.enc f c) s = .next (s.after (encode (.enc f c)) (w.setWidth 40)) ∧
    exec (.dec strict w) s' = .next (s'.after (encode (.dec strict w))
      (1#40 <<< 24 ||| f.setWidth 40 <<< 16 ||| c.setWidth 40))

/-- R92: for every payload exactly one word is parity-valid, so 2^24 words are; a parity-valid word re-encodes to itself,
and the re-encoding of another differs from it in bit 25, bit 0 or both and in no other bit. -/
def Obligations.CanonicalParityValidWords : Prop :=
  (∀ p : Payload24, ∀ w : Word26,
    payloadOf w = p ∧ parityOk w = 1 ↔ w = codecEncode (facilityOf p) (cardOf p)) ∧
  Set.ncard {w : Word26 | parityOk w = 1} = 2 ^ 24 ∧
  (∀ w : Word26, parityOk w = 1 → codecEncode (codecDecode w).facility (codecDecode w).card = w) ∧
  (∀ w : Word26, parityOk w = 0 →
    codecEncode (codecDecode w).facility (codecDecode w).card ^^^ w ∈ [1#26, 0x2000000#26, 0x2000001#26])

/-- R93: changing one bit of a parity-valid word makes it invalid; two in one half (each half with its parity bit) leave
it valid, one in each half make it invalid; the ones of a valid word are even in `word[25:13]`, odd in `word[12:0]` and
odd in all; 0x3409EE9 is valid and has 13. -/
def Obligations.BitErrorsDetected : Prop :=
  (∀ (w : Word26) (i : Nat), parityOk w = 1 → i < 26 → parityOk (w ^^^ 1#26 <<< i) = 0) ∧
  (∀ (w : Word26) (i j : Nat), parityOk w = 1 → i < j → j < 26 →
    (parityOk (w ^^^ 1#26 <<< i ^^^ 1#26 <<< j) = 1 ↔ (j ≤ 12 ∨ 13 ≤ i))) ∧
  (∀ w : Word26, parityOk w = 1 →
    onesBelow 13 (fun i => w.getLsbD (13 + i)) % 2 = 0 ∧ onesBelow 13 w.getLsbD % 2 = 1 ∧
    (popcount (w.setWidth 32)).toNat % 2 = 1) ∧
  parityOk 0x3409EE9 = 1 ∧ popcount 0x3409EE9 = 13

/-- R104: the five outputs of the parity_check_unit; the flag is 1 exactly when both actual bits equal the expected
ones. -/
def Obligations.ParityUnitOutputs : Prop :=
  ∀ w : Word26,
    (parityCheck w).a1 = BitVec.ofBool (w.getLsbD 25) ∧
    (parityCheck w).e1 = BitVec.ofBool (oddOnes 13 w.getLsbD) ∧
    (parityCheck w).a2 = BitVec.ofBool (w.getLsbD 0) ∧
    (parityCheck w).e2 = BitVec.ofBool (!oddOnes 1 w.getLsbD) ∧
    (parityCheck w).ok = BitVec.ofBool (parityValid w)

/-- R107: PCHK fails exactly when DEC fails, the flag of one is the flag of the other, and of the 32 patterns of five bits
those occur whose lowest bit says whether bits 1 and 2 agree and bits 3 and 4 agree. -/
def Obligations.ParityCheckAgreesWithDecode : Prop :=
  (∀ (strict : Bool) (w : Word26) (s : State), ∃ a b : PortWord,
    exec (.pchk strict w) s = .next (s.after (encode (.pchk strict w)) a) ∧
    exec (.dec strict w) s = .next (s.after (encode (.dec strict w)) b) ∧
    (a = 0x4400000000 ↔ b = 0x4400000000) ∧
    (rspStatus a = 0 → a.getLsbD 0 = b.getLsbD 24)) ∧
  (∀ k : BitVec 5, (∃ w : Word26, opPchk false w = .ok (k.setWidth 32)) ↔
    k.getLsbD 0 = (k.getLsbD 1 == k.getLsbD 2 && k.getLsbD 3 == k.getLsbD 4))

/-- R71, R106: `ENC(payload) = PGEN(payload) | (payload << 1)`, and PGEN's result has no bit in positions 24 to 1. -/
def Obligations.EncIsPgenOverPayload : Prop :=
  ∀ (p : Payload24) (s : State), ∃ w g : Word26,
    exec (.enc (p.extractLsb' 16 8) (p.extractLsb' 0 16)) s =
      .next (s.after (p.setWidth 40) (w.setWidth 40)) ∧
    exec (.pgen p) s = .next (s.after (0x2000000000 ||| p.setWidth 40) (g.setWidth 40)) ∧
    w = g ||| p.setWidth 26 <<< 1 ∧ g.extractLsb' 1 24 = 0

/-- R108: each expected bit depends on its own half only and one changed bit inverts it; of the four words with a payload
only one is parity-valid; the two spans of a parity-valid word have an even and an odd count; the facility alone does not
determine P1. -/
def Obligations.ParityGeneratorFacts : Prop :=
  (∀ (p : Payload24) (i : Nat), i < 24 →
    (p1Expected (p ^^^ 1#24 <<< i) = if 12 ≤ i then p1Expected p ^^^ 1 else p1Expected p) ∧
    (p2Expected (p ^^^ 1#24 <<< i) = if 12 ≤ i then p2Expected p else p2Expected p ^^^ 1)) ∧
  (∀ p q : Payload24, (p.extractLsb' 12 12 = q.extractLsb' 12 12 → p1Expected p = p1Expected q) ∧
    (p.extractLsb' 0 12 = q.extractLsb' 0 12 → p2Expected p = p2Expected q)) ∧
  (∀ (p : Payload24) (a b : ParityBit),
    parityOk (assemble a p b) = 1 ↔ a = p1Expected p ∧ b = p2Expected p) ∧
  (∀ w : Word26, parityOk w = 1 →
    (popcount ((w.extractLsb' 13 13).setWidth 32)).toNat % 2 = 0 ∧
    (popcount ((w.extractLsb' 0 13).setWidth 32)).toNat % 2 = 1) ∧
  (∀ f : FacilityCode, ∃ c c' : CardNumber, p1Expected (mkpayload f c) ≠ p1Expected (mkpayload f c'))

/-- R120: a value fails its bound exactly when some bit above the type's width is 1. -/
def Obligations.RangeFailsOnHighBits : Prop :=
  ∀ v : U32,
    (opWchk v = .error .outOfRangeWord ↔ v.extractLsb' 26 6 ≠ 0) ∧
    (opFchk v = .error .outOfRangeFacility ↔ v.extractLsb' 8 24 ≠ 0) ∧
    (opCchk v = .error .outOfRangeCard ↔ v.extractLsb' 16 16 ≠ 0)

/-! ### Programs -/

/-- R76, R175, R197, R198: a program issues at most one transaction a line, in order. The `k`-th request is the `k`-th
line's `{op, 000, S, expr}` under the bindings so far, its response is the port's answer to it, and a line answered with
status 0 binds its own name to the result. The program ends after its last line with every status 0, or at the first
response whose status is not 0, which binds nothing, is the last transaction and is the outcome. The third end, at a line
whose operand reads what no earlier line bound, and that a name reads as its newest binding, are the model's choice (log
entry 5). -/
def Obligations.ProgramStopsAtFirstError : Prop :=
  ∀ (ls : List Line) (env : Bindings) (s : State), ∃ (good : List Transaction) (last : List Transaction),
    (runLines ls env s).state.trace = s.trace ++ good ++ last ∧
    (∀ t ∈ good, rspStatus t.rsp = 0) ∧
    (∀ t ∈ good ++ last, t.rsp = respond t.req) ∧
    (∀ (k : Nat) (l : Line) (t : Transaction), ls[k]? = some l → (good ++ last)[k]? = some t → ∃ v : U32,
      l.expr.eval (boundBy ls (good.take k) env) = some v ∧
      t.req = l.mnemonic.code.setWidth 40 <<< 36 ||| (BitVec.ofBool l.strict).setWidth 40 <<< 32 ||| v.setWidth 40) ∧
    (runLines ls env s).bindings = boundBy ls good env ∧
    (match (runLines ls env s).ended with
     | .finished => last = [] ∧ good.length = ls.length
     | .failed st f => ∃ t, last = [t] ∧ good.length < ls.length ∧ st ≠ 0 ∧ rspStatus t.rsp = st ∧ rspField t.rsp = f
     | .unbound => last = [] ∧ ∃ l, ls[good.length]? = some l ∧ l.expr.eval (boundBy ls good env) = none)

/-- R76: no line of a well-formed program names an unbound value; the `unbound` end it rules out is the model's choice
(log entry 5). -/
def Obligations.WellFormedProgramNeverUnbound : Prop :=
  ∀ (ls : List Line) (env : Bindings) (s : State), programWellFormed (env.map Prod.fst) ls = true →
    (runLines ls env s).ended ≠ .unbound

/-- R124, R172: a successful check returns its operand unchanged with every higher bit 0, and the expansions of the
pseudo-instructions never raise IllegalRequest, whatever their operands. Two clauses are the model's choice: what fresh
names exclude, the least any meaning excludes, so that the claim covers every stricter one (log entry 13); and, where
the bindings already hold one of the names, that it reads as its newest binding (log entry 5). -/
def Obligations.PseudoInstructionsNeverIllegal : Prop :=
  (∀ v r : U32,
    (opWchk v = .ok r → r = v ∧ r.extractLsb' 26 6 = 0) ∧
    (opFchk v = .ok r → r = v ∧ r.extractLsb' 8 24 = 0) ∧
    (opCchk v = .ok r → r = v ∧ r.extractLsb' 16 16 = 0)) ∧
  (∀ (p : Pseudo) (t1 t2 t3 : Name) (env : Bindings) (s : State), p.Fresh t1 t2 t3 →
    (runLines (p.expand t1 t2 t3) env s).ended ≠
      .failed Failure.illegalRequest.status.code Failure.illegalRequest.field.code)

/-- R77, R145: CONVD and CONVD.S with a literal operand are the hardware sequence of `Convert`'s FromDecimal form: they fail with the same status
and field, and otherwise bind the same word and the same decoded fields. Two clauses are the model's choice: of the names
no more is asked than that `t1` is not `r` (log entry 13), and one that the bindings already hold reads as its newest
binding (log entry 5). -/
def Obligations.ConvdIsConvertFromDecimal : Prop :=
  ∀ (isWs : Char → Bool) (facTrim : Bool) (intParseMax : Option Nat) (strict : Bool) (v : U32) (r t1 t2 t3 : Name)
    (env : Bindings) (s : State), t1 ≠ r →
    let run := runLines ((Pseudo.convd strict r (.lit v)).expand t1 t2 t3) env s
    match convert isWs facTrim intParseMax (.fromDecimal v) { strict } with
    | .error e => run.ended = .failed e.status.code e.field.code
    | .ok (.bareHex _) => False
    | .ok (.aggregate c) => run.ended = .finished ∧ run.bindings.lookup t1 = some (c.decimal.setWidth 32) ∧
        run.bindings.lookup r = some ((BitVec.ofBool c.parityOk).setWidth 32 <<< 24 |||
          c.facility.setWidth 32 <<< 16 ||| c.card.setWidth 32)

/-- R77, R145: CONVFC is the numeric part of `Convert`'s FromFacilityCard form, for every facility text that parses and every
card, as literal operands. Two clauses are the model's choice: of the names no more is asked than that they are distinct
(log entry 13), and one that the bindings already hold reads as its newest binding (log entry 5). -/
def Obligations.ConvfcIsConvertFromFacilityCard : Prop :=
  ∀ (isWs : Char → Bool) (facTrim : Bool) (intParseMax : Option Nat) (text : Option Text) (f : FacilityCode) (cv : U32)
    (r t1 t2 t3 : Name) (env : Bindings) (s : State),
    parseFacilityText isWs facTrim intParseMax text = .ok f → [r, t1, t2, t3].Nodup →
    let run := runLines ((Pseudo.convfc r (.lit (f.setWidth 32)) (.lit cv)).expand t1 t2 t3) env s
    match convert isWs facTrim intParseMax (.fromFacilityCard text cv) {} with
    | .error e => run.ended = .failed e.status.code e.field.code
    | .ok (.bareHex _) => False
    | .ok (.aggregate c) => run.ended = .finished ∧ run.bindings.lookup t3 = some (c.decimal.setWidth 32) ∧
        run.bindings.lookup r = some (1#32 <<< 24 ||| c.facility.setWidth 32 <<< 16 ||| c.card.setWidth 32)

/-! ### The host's text functions -/

/-- R135: the 22 hex digits and their values, and the ten decimal digits and theirs; no other character is one. -/
def Obligations.DigitsAndTheirValues : Prop :=
  (∀ (c : Char) (d : Nat), hexValue? c = some d ↔
    "0123456789abcdef".toList[d]? = some c ∨ "0123456789ABCDEF".toList[d]? = some c) ∧
  (∀ c : Char, isDecimal c = true ↔ c ∈ "0123456789".toList) ∧
  (∀ d < 10, ("0123456789".toList[d]?).map decimalValue = some d)

/-- R136: a hex text that is absent, empty, longer than 8 or holds another character is InvalidFormat(WORD); otherwise
its value, first digit most significant, is OutOfRange(WORD) above 0x3FFFFFF and is the word up to there.
That an absent, empty, over-long, prefixed, signed or spaced text is InvalidFormat is the spec's own reading, D22 (log
entry 9). -/
def Obligations.HexTextParses : Prop :=
  parseWord26FromHex none = .error ⟨.invalidFormat, .word⟩ ∧
  (∀ t : Text, t.length = 0 ∨ 8 < t.length ∨ (∃ c ∈ t, hexValue? c = none) →
    parseWord26FromHex (some t) = .error ⟨.invalidFormat, .word⟩) ∧
  (∀ (t : Text) (ds : List Nat), 1 ≤ t.length → t.length ≤ 8 → t.map hexValue? = ds.map some →
    (0x3FFFFFF < Nat.ofDigits 16 ds.reverse → parseWord26FromHex (some t) = .error ⟨.outOfRange, .word⟩) ∧
    (Nat.ofDigits 16 ds.reverse ≤ 0x3FFFFFF →
      parseWord26FromHex (some t) = .ok (BitVec.ofNat 26 (Nat.ofDigits 16 ds.reverse))))

/-- R139: the six tests of ParseFacilityText in their order, for every value of the open parameters. A text that matches
is an optional "FC" in any case and then digits, read after trimming where `FAC_TRIM` holds. -/
def Obligations.FacilityTextParses : Prop :=
  ∀ (isWs : Char → Bool) (facTrim : Bool) (intParseMax : Option Nat),
    let parse := parseFacilityText isWs facTrim intParseMax
    let tags : List Text := [[], ['F', 'C'], ['F', 'c'], ['f', 'C'], ['f', 'c']]
    let numeral (ds : Text) : Prop := ds ≠ [] ∧ ∀ c ∈ ds, c ∈ "0123456789".toList
    let value (ds : Text) : Nat := Nat.ofDigits 10 (ds.reverse.map fun c => c.toNat - '0'.toNat)
    parse none = .error ⟨.emptyInput, .facility⟩ ∧
    (∀ text : Text, (∀ c ∈ text, isWs c = true) → parse (some text) = .error ⟨.emptyInput, .facility⟩) ∧
    (∀ pre t post : Text, (∃ c ∈ t, isWs c = false) →
      (facTrim = true → (∀ c ∈ pre ++ post, isWs c = true) ∧
        (∀ c ∈ t.head?, isWs c = false) ∧ (∀ c ∈ t.getLast?, isWs c = false)) →
      (facTrim = false → pre = [] ∧ post = []) →
      ((¬ ∃ tag ∈ tags, ∃ ds, numeral ds ∧ t = tag ++ ds) →
        parse (some (pre ++ t ++ post)) = .error ⟨.invalidFormat, .facility⟩) ∧
      (∀ tag ∈ tags, ∀ ds, numeral ds → t = tag ++ ds →
        ((∃ m, intParseMax = some m ∧ m < value ds) →
          parse (some (pre ++ t ++ post)) = .error ⟨.invalidFormat, .facility⟩) ∧
        ((∀ m, intParseMax = some m → value ds ≤ m) →
          (255 < value ds → parse (some (pre ++ t ++ post)) = .error ⟨.outOfRange, .facility⟩) ∧
          (value ds ≤ 255 → parse (some (pre ++ t ++ post)) = .ok (BitVec.ofNat 8 (value ds))))))

/-- R141: eight characters, character `i` the digit of `v[31 - 4*i : 28 - 4*i]`, in the case the toggle selects. -/
def Obligations.RenderHexDigits : Prop :=
  ∀ (w : Word26) (uppercase : Bool),
    (renderHex w uppercase).length = 8 ∧
    ∀ i < 8, (renderHex w uppercase)[i]? =
      (if uppercase then "0123456789ABCDEF" else "0123456789abcdef").toList[w.toNat / 16 ^ (7 - i) % 16]?

/-- R142: 26 characters, most significant bit first. -/
def Obligations.RenderBinaryBits : Prop :=
  ∀ w : Word26,
    (renderBinary w).length = 26 ∧
    ∀ i < 26, (renderBinary w)[i]? = some (if w.toNat / 2 ^ (25 - i) % 2 = 1 then '1' else '0')

/-- R150: parsing a rendered word gives it back in either case, both renderings are injective, and the decimal numeral of
a facility parses to it, with or without "FC", for every admitted value of the open parameters. -/
def Obligations.TextRoundTrips : Prop :=
  (∀ (w : Word26) (uppercase : Bool), parseWord26FromHex (some (renderHex w uppercase)) = .ok w) ∧
  (∀ uppercase : Bool, Function.Injective fun w => renderHex w uppercase) ∧
  Function.Injective renderBinary ∧
  (∀ (isWs : Char → Bool) (facTrim : Bool) (intParseMax : Option Nat) (f : FacilityCode),
    Config.AdmittedIsWs isWs → Config.AdmittedIntParseMax intParseMax →
    ∀ tag ∈ ([[], ['F', 'C'], ['F', 'c'], ['f', 'C'], ['f', 'c']] : List Text),
      parseFacilityText isWs facTrim intParseMax (some (tag ++ Nat.toDigits 10 f.toNat)) = .ok f)

/-- R147: an input that yields no word fails with its own error whatever the toggles; a word of wrong parity fails with
ParityCheckFailed(PARITY) under strict validation, in raw-hex mode too, and without it succeeds with ParityOk false.
That strict validation applies in raw-hex mode is the spec's own reading, D24 (log entry 10). -/
def Obligations.StrictConversion : Prop :=
  ∀ (isWs : Char → Bool) (facTrim : Bool) (intParseMax : Option Nat) (input : ConvertInput) (toggles : Toggles),
    (∀ e, inputWord isWs facTrim intParseMax input = .error e →
      convert isWs facTrim intParseMax input toggles = .error e) ∧
    (∀ w, inputWord isWs facTrim intParseMax input = .ok w → parityValid w = false →
      (toggles.strict = true →
        convert isWs facTrim intParseMax input toggles = .error ⟨.parityCheckFailed, .parity⟩) ∧
      (toggles.strict = false → toggles.rawHex = true →
        convert isWs facTrim intParseMax input toggles = .ok (.bareHex (renderHex w toggles.uppercase))) ∧
      (toggles.strict = false → toggles.rawHex = false → ∃ c,
        convert isWs facTrim intParseMax input toggles = .ok (.aggregate c) ∧ c.parityOk = false ∧ c.decimal = w))

/-- R136, R138, R140, R144, R145, R148, R149: `Convert` form by form. A hex text gives the word or the error of
ParseWord26FromHex, a decimal value up to 0x3FFFFFF is the word and a greater one is OutOfRange(WORD), and a facility text
that parses gives with every card the parity-valid word that carries both. A word then converts, unless strict validation
meets wrong parity, to the bare hex text or to the aggregate with every field as the table gives it, the tag that of the
input form. -/
def Obligations.ConversionAggregate : Prop :=
  ∀ (isWs : Char → Bool) (facTrim : Bool) (intParseMax : Option Nat) (toggles : Toggles),
    let run (input : ConvertInput) := convert isWs facTrim intParseMax input toggles
    let output (tag : InputTag) (w : Word26) : ConvertOutput :=
      if toggles.rawHex then .bareHex (renderHex w toggles.uppercase)
      else .aggregate {
        hex := renderHex w toggles.uppercase, decimal := w, facility := w.extractLsb' 17 8, card := w.extractLsb' 1 16,
        parityOk := parityValid w, tag,
        binary := if toggles.includeBinary then some (renderBinary w) else none }
    (∀ (text : Option Text) (w : Word26), parseWord26FromHex text = .ok w →
      toggles.strict = false ∨ parityValid w = true → run (.fromHex text) = .ok (output .fromHex w)) ∧
    (∀ (text : Option Text) (e : Failure), parseWord26FromHex text = .error e → run (.fromHex text) = .error e) ∧
    (∀ w : Word26, toggles.strict = false ∨ parityValid w = true →
      run (.fromDecimal (w.setWidth 32)) = .ok (output .fromDecimal w)) ∧
    (∀ v : U32, 0x3FFFFFF < v.toNat → run (.fromDecimal v) = .error ⟨.outOfRange, .word⟩) ∧
    (∀ (text : Option Text) (f : FacilityCode) (c : CardNumber), parseFacilityText isWs facTrim intParseMax text = .ok f →
      ∃ w : Word26, w.extractLsb' 17 8 = f ∧ w.extractLsb' 1 16 = c ∧ parityValid w = true ∧
        run (.fromFacilityCard text (c.setWidth 32)) = .ok (output .fromFacilityCard w))

/-- R146: in the FromFacilityCard form ParityOk is true, facility and card are the validated inputs, and strict
validation never fails. -/
def Obligations.FacilityCardConversionValid : Prop :=
  ∀ (isWs : Char → Bool) (facTrim : Bool) (intParseMax : Option Nat) (text : Option Text) (f : FacilityCode)
    (c : CardNumber) (toggles : Toggles), parseFacilityText isWs facTrim intParseMax text = .ok f →
    (toggles.rawHex = false → ∃ out,
      convert isWs facTrim intParseMax (.fromFacilityCard text (c.setWidth 32)) toggles = .ok (.aggregate out) ∧
      out.parityOk = true ∧ out.facility = f ∧ out.card = c ∧ out.tag = .fromFacilityCard) ∧
    (∀ e, convert isWs facTrim intParseMax (.fromFacilityCard text (c.setWidth 32)) toggles ≠ .error e)

/-- R174: in the FromFacilityCard form a bad facility text is reported whatever the card, and only then is a card above
65535 reported, as OutOfRange(CARD).
The order is the spec's own reading, D21 (log entry 8). -/
def Obligations.FacilityCheckedBeforeCard : Prop :=
  ∀ (isWs : Char → Bool) (facTrim : Bool) (intParseMax : Option Nat) (text : Option Text) (cv : U32)
    (toggles : Toggles),
    (∀ e, parseFacilityText isWs facTrim intParseMax text = .error e →
      convert isWs facTrim intParseMax (.fromFacilityCard text cv) toggles = .error e) ∧
    (∀ f, parseFacilityText isWs facTrim intParseMax text = .ok f → 65535 < cv.toNat →
      convert isWs facTrim intParseMax (.fromFacilityCard text cv) toggles = .error ⟨.outOfRange, .card⟩)

/-! ### Expressions -/

/-- R76: the value of a host-side expression: a literal is itself, a bound name has its bound value, the slice `[h:l]` is
those bits of it, `<< k` discards the bits past bit 31, and `|`, `&`, `^` act bit by bit; an expression has no value
exactly when it reads an unbound name. That a name reads as its newest binding is the model's choice (log entry 5). -/
def Obligations.ExpressionValues : Prop :=
  (∀ (env : Bindings) (v : U32), (Expr.lit v).eval env = some v) ∧
  (∀ (env : Bindings) (n m : Name) (v : U32),
    (Expr.name n).eval ((m, v) :: env) = if n = m then some v else (Expr.name n).eval env) ∧
  (∀ (env : Bindings) (n : Name) (v : U32) (h l : Nat), (Expr.name n).eval env = some v → l ≤ h → h ≤ 31 →
    ∃ r, (Expr.slice n h l).eval env = some r ∧ r.toNat = v.toNat / 2 ^ l % 2 ^ (h - l + 1)) ∧
  (∀ (env : Bindings) (e : Expr) (x : U32) (k : Nat), e.eval env = some x → k ≤ 31 →
    ∃ r, (Expr.shl e k).eval env = some r ∧ r.toNat = x.toNat * 2 ^ k % 2 ^ 32) ∧
  (∀ (env : Bindings) (a b : Expr) (x y : U32), a.eval env = some x → b.eval env = some y →
    ∃ o n e, (Expr.or a b).eval env = some o ∧ (Expr.and a b).eval env = some n ∧ (Expr.xor a b).eval env = some e ∧
      ∀ i < 32, o.getLsbD i = (x.getLsbD i || y.getLsbD i) ∧ n.getLsbD i = (x.getLsbD i && y.getLsbD i) ∧
        e.getLsbD i = (x.getLsbD i != y.getLsbD i)) ∧
  (∀ (env : Bindings) (e : Expr), e.eval env = none ↔ ∃ n ∈ e.names, n ∉ env.map Prod.fst)
end

