-- ==== Sys2Proof/Laws/Decode.lean ====
section
/-! SUPPORT. The request word and its fields are one thing in two forms (30_encoding.md R63), and the decoder refuses
exactly the requests that are not well formed (R74). -/

namespace Sys2Proof

@[simp] theorem Request.ofWord_op (r : PortWord) : (Request.ofWord r).op = r.extractLsb' 36 4 := rfl
@[simp] theorem Request.ofWord_mbz (r : PortWord) : (Request.ofWord r).mbz = r.extractLsb' 33 3 := rfl
@[simp] theorem Request.ofWord_strict (r : PortWord) : (Request.ofWord r).strict = r.getLsbD 32 := rfl
@[simp] theorem Request.ofWord_opnd (r : PortWord) : (Request.ofWord r).opnd = r.extractLsb' 0 32 := rfl

/-- No bit of a request's fields is lost in its word. -/
@[simp] theorem Request.ofWord_toWord (q : Request) : Request.ofWord q.toWord = q := by
  obtain ⟨op, mbz, strict, opnd⟩ := q
  simp only [Request.ofWord, Request.toWord, Request.mk.injEq]
  refine ⟨?_, ?_, ?_, ?_⟩
  · ext i hi
    simp [hi, show 36 + i < 40 by omega, show ¬ 36 + i < 33 by omega, show 36 + i - 33 ≥ 3 by omega,
      show ¬ 36 + i - 32 = 0 by omega, BitVec.getLsbD_of_ge opnd (36 + i) (by omega)]
  · ext i hi
    simp [hi, show 33 + i < 40 by omega, show 33 + i < 36 by omega,
      show ¬ 33 + i - 32 = 0 by omega, BitVec.getLsbD_of_ge opnd (33 + i) (by omega)]
  · simp
  · ext i hi
    simp [hi, show i < 40 by omega, show i < 36 by omega, show i < 33 by omega]

/-- No bit of a request word is outside its fields. -/
@[simp] theorem Request.toWord_ofWord (r : PortWord) : (Request.ofWord r).toWord = r := by
  refine BitVec.eq_of_getLsbD_eq fun i hi => ?_
  simp only [Request.ofWord, Request.toWord, BitVec.getLsbD_or, BitVec.getLsbD_shiftLeft,
    BitVec.getLsbD_setWidth, BitVec.getLsbD_extractLsb', BitVec.getLsbD_ofBool]
  rcases (show i < 32 ∨ i = 32 ∨ (33 ≤ i ∧ i < 36) ∨ (36 ≤ i ∧ i < 40) by omega) with h | h | h | h
  · simp [hi, h, show i < 36 by omega, show i < 33 by omega]
  · simp [h]
  · simp [show ¬ i < 33 by omega, show ¬ i < 32 by omega, h.2, show i - 33 < 3 by omega,
      show 33 + (i - 33) = i by omega, show ¬ i - 32 = 0 by omega, hi, show i - 33 < 40 by omega]
  · simp [show ¬ i < 33 by omega, show ¬ i < 32 by omega, show ¬ i < 36 by omega, show ¬ i - 33 < 3 by omega,
      show i - 36 < 4 by omega, show 36 + (i - 36) = i by omega, show ¬ i - 32 = 0 by omega, hi,
      show i - 36 < 40 by omega]

@[simp] theorem Mnemonic.ofCode_code (m : Mnemonic) : Mnemonic.ofCode m.code = some m := by
  cases m <;> rfl

theorem Mnemonic.code_of_ofCode {op : BitVec 4} {m : Mnemonic} (h : Mnemonic.ofCode op = some m) :
    m.code = op := by
  revert op; cases m <;> decide

/-- What the decoder makes of a request's fields is what it makes of the word that carries them. -/
@[simp] theorem decode_toWord (q : Request) : decode q.toWord = decodeRequest q := by
  simp [decode]

/-- When a request decodes: each of R73's steps 1 to 4 lets it pass. -/
theorem decodeRequest_ok {q : Request} {i : Instr} (h : decodeRequest q = .ok i) :
    ∃ m, Mnemonic.ofCode q.op = some m ∧ q.mbz = 0 ∧ (q.strict = true → m.format.hasStrict = true) ∧
      m.format.operandBad q.opnd = false ∧ i = m.instr q.strict q.opnd := by
  unfold decodeRequest at h
  split at h
  · cases h
  · rename_i m hm
    by_cases h1 : q.mbz = 0#3
    case neg => simp [h1] at h
    simp [h1] at h
    by_cases h2 : q.strict = true ∧ m.format.hasStrict = false
    · simp [h2] at h
    by_cases h3 : m.format.operandBad q.opnd = true
    · simp [h2, h3] at h
    simp [h2, h3] at h
    exact ⟨m, hm, h1, by simpa using h2, by simpa using h3, by simpa [eq_comm] using h⟩

/-- When a request is refused: no operation has its number, or one of R73's steps 2 to 4 applies. -/
theorem decodeRequest_error {q : Request} {e : Malformation} (h : decodeRequest q = .error e) :
    Mnemonic.ofCode q.op = none ∨ ∃ m, Mnemonic.ofCode q.op = some m ∧
      (q.mbz ≠ 0 ∨ (q.strict = true ∧ m.format.hasStrict = false) ∨ m.format.operandBad q.opnd = true) := by
  unfold decodeRequest at h
  split at h
  · exact .inl ‹_›
  · rename_i m hm
    refine .inr ⟨m, hm, ?_⟩
    by_cases h1 : q.mbz = 0#3
    case neg => exact .inl h1
    by_cases h2 : q.strict = true ∧ m.format.hasStrict = false
    case pos => exact .inr (.inl h2)
    by_cases h3 : m.format.operandBad q.opnd = true
    case pos => exact .inr (.inr h3)
    simp [h1, h2, h3] at h

/-- The reserved op numbers are 8 to 15 (R66, R74). -/
theorem Mnemonic.ofCode_eq_none (op : BitVec 4) : Mnemonic.ofCode op = none ↔ 8 ≤ op.toNat := by
  revert op; decide

end Sys2Proof
end

