-- ==== Sys2Proof/Laws/Operands.lean ====
section
/-! SUPPORT. Assembly and extraction, bit by bit (40_codec.md R80 to R84). -/

namespace Sys2Proof.Machine

/-- A mask of `n` low ones keeps exactly the bits below `n`. -/
theorem getLsbD_lowMask {w n : Nat} (h : n ≤ w) (i : Nat) :
    (BitVec.ofNat w (2 ^ n - 1)).getLsbD i = decide (i < n) := by
  simp only [BitVec.getLsbD_ofNat, Nat.testBit_two_pow_sub_one]
  by_cases hi : i < n <;> simp [hi]
  omega

theorem getLsbD_mkpayload (f : FacilityCode) (c : CardNumber) (i : Nat) :
    (mkpayload f c).getLsbD i = if i < 16 then c.getLsbD i else f.getLsbD (i - 16) := by
  simp only [mkpayload, BitVec.getLsbD_or, BitVec.getLsbD_shiftLeft, BitVec.getLsbD_setWidth]
  by_cases h : i < 16
  · simp [h, show i < 24 by omega]
  · by_cases h2 : i < 24
    · simp [h, h2, BitVec.getLsbD_of_ge c i (by omega), show i - 16 < 24 by omega]
    · simp [h, h2, BitVec.getLsbD_of_ge f (i - 16) (by omega)]

theorem getLsbD_assemble (a : ParityBit) (p : Payload24) (b : ParityBit) (i : Nat) :
    (assemble a p b).getLsbD i =
      if i = 0 then b.getLsbD 0 else if i < 25 then p.getLsbD (i - 1) else a.getLsbD (i - 25) := by
  simp only [assemble, BitVec.getLsbD_or, BitVec.getLsbD_shiftLeft, BitVec.getLsbD_setWidth]
  by_cases h0 : i = 0
  · subst h0; simp
  by_cases h : i < 25
  · simp [h0, h, BitVec.getLsbD_of_ge b i (by omega), show i < 26 by omega, show ¬ i < 1 by omega,
      show i - 1 < 26 by omega]
  · by_cases h2 : i < 26
    · simp [h0, h, h2, BitVec.getLsbD_of_ge b i (by omega), BitVec.getLsbD_of_ge p (i - 1) (by omega),
        show i - 25 < 26 by omega]
    · simp [h0, h, h2, BitVec.getLsbD_of_ge a (i - 25) (by omega)]

theorem getLsbD_payloadOf (w : Word26) (i : Nat) :
    (payloadOf w).getLsbD i = (decide (i < 24) && w.getLsbD (1 + i)) := by
  simp only [payloadOf, BitVec.getLsbD_setWidth, BitVec.getLsbD_and, BitVec.getLsbD_ushiftRight,
    show (0xFFFFFF#26) = BitVec.ofNat 26 (2 ^ 24 - 1) from rfl, getLsbD_lowMask (show 24 ≤ 26 by omega)]
  by_cases h : i < 24 <;> simp [h]

theorem getLsbD_facilityOf (p : Payload24) (i : Nat) :
    (facilityOf p).getLsbD i = (decide (i < 8) && p.getLsbD (16 + i)) := by
  simp only [facilityOf, BitVec.getLsbD_setWidth, BitVec.getLsbD_and, BitVec.getLsbD_ushiftRight,
    show (0xFF#24) = BitVec.ofNat 24 (2 ^ 8 - 1) from rfl, getLsbD_lowMask (show 8 ≤ 24 by omega)]
  by_cases h : i < 8 <;> simp [h]

theorem getLsbD_cardOf (p : Payload24) (i : Nat) :
    (cardOf p).getLsbD i = (decide (i < 16) && p.getLsbD i) := by
  simp only [cardOf, BitVec.getLsbD_setWidth, BitVec.getLsbD_and,
    show (0xFFFF#24) = BitVec.ofNat 24 (2 ^ 16 - 1) from rfl, getLsbD_lowMask (show 16 ≤ 24 by omega)]
  by_cases h : i < 16 <;> simp [h]

theorem getLsbD_p1Of (w : Word26) (i : Nat) :
    (p1Of w).getLsbD i = (decide (i < 1) && w.getLsbD (25 + i)) := by
  simp only [p1Of, BitVec.getLsbD_setWidth, BitVec.getLsbD_and, BitVec.getLsbD_ushiftRight,
    show (1#26) = BitVec.ofNat 26 (2 ^ 1 - 1) from rfl, getLsbD_lowMask (show 1 ≤ 26 by omega)]
  by_cases h : i < 1 <;> simp [h]

theorem getLsbD_p2Of (w : Word26) (i : Nat) :
    (p2Of w).getLsbD i = (decide (i < 1) && w.getLsbD i) := by
  simp only [p2Of, BitVec.getLsbD_setWidth, BitVec.getLsbD_and,
    show (1#26) = BitVec.ofNat 26 (2 ^ 1 - 1) from rfl, getLsbD_lowMask (show 1 ≤ 26 by omega)]
  by_cases h : i < 1 <;> simp [h]

end Sys2Proof.Machine
end

