-- ==== Sys2Proof/Laws/Parity.lean ====
section
/-! SUPPORT. Facts about the population count and the parity generator (41_parity.md R100 to R102). -/

namespace Sys2Proof.Machine

theorem onesBelow_le (n : Nat) (bit : Nat → Bool) : onesBelow n bit ≤ n := by
  induction n with
  | zero => simp [onesBelow]
  | succ n ih => simp only [onesBelow]; split <;> omega

theorem onesBelow_congr {n : Nat} {f g : Nat → Bool} (h : ∀ i < n, f i = g i) :
    onesBelow n f = onesBelow n g := by
  induction n with
  | zero => rfl
  | succ n ih => simp [onesBelow, ih fun i hi => h i (by omega), h n (by omega)]

/-- Bits above the last index that can be 1 add nothing. -/
theorem onesBelow_add_false {n k : Nat} {f : Nat → Bool} (h : ∀ i, n ≤ i → f i = false) :
    onesBelow (n + k) f = onesBelow n f := by
  induction k with
  | zero => rfl
  | succ k ih => simp [onesBelow, ih, h (n + k) (by omega)]

/-- R100's sum is the number of 1 bits. -/
theorem onesCount_eq (v : U32) : onesCount v = onesBelow 32 v.getLsbD := by
  have key : ∀ n, ((List.range n).map fun i => (v.getLsbD i).toNat).sum = onesBelow n v.getLsbD := by
    intro n
    induction n with
    | zero => rfl
    | succ n ih =>
      rw [List.range_succ, List.map_append, List.sum_append, ih]
      cases h : v.getLsbD n <;> simp [onesBelow, h]
  exact key 32

/-- The count fits its 6 bits (R100). -/
theorem popcount_toNat (v : U32) : (popcount v).toNat = onesBelow 32 v.getLsbD := by
  have h := onesBelow_le 32 v.getLsbD
  simp only [popcount, onesCount_eq, BitVec.toNat_ofNat]
  omega

/-- The population count of the upper payload half (R101). -/
theorem popcount_upper (p : Payload24) :
    (popcount ((p >>> 12 &&& 0xFFF#24).setWidth 32)).toNat = onesBelow 12 fun i => p.getLsbD (12 + i) := by
  have mask : ∀ i, (0xFFF#24).getLsbD i = decide (i < 12) := by
    intro i
    by_cases h : i < 24
    · revert h; revert i; decide
    · simp [BitVec.getLsbD_of_ge _ _ (Nat.le_of_not_lt h)]; omega
  rw [popcount_toNat, show (32 : Nat) = 12 + 20 from rfl, onesBelow_add_false]
  · refine onesBelow_congr fun i hi => ?_
    simp only [BitVec.getLsbD_setWidth, BitVec.getLsbD_and, BitVec.getLsbD_ushiftRight, mask]
    simp [hi, show i < 32 by omega]
  · intro i hi
    simp only [BitVec.getLsbD_setWidth, BitVec.getLsbD_and, mask]
    simp [show ¬ i < 12 by omega]

/-- The population count of the lower payload half (R102). -/
theorem popcount_lower (p : Payload24) :
    (popcount ((p &&& 0xFFF#24).setWidth 32)).toNat = onesBelow 12 p.getLsbD := by
  have mask : ∀ i, (0xFFF#24).getLsbD i = decide (i < 12) := by
    intro i
    by_cases h : i < 24
    · revert h; revert i; decide
    · simp [BitVec.getLsbD_of_ge _ _ (Nat.le_of_not_lt h)]; omega
  rw [popcount_toNat, show (32 : Nat) = 12 + 20 from rfl, onesBelow_add_false]
  · refine onesBelow_congr fun i hi => ?_
    simp only [BitVec.getLsbD_setWidth, BitVec.getLsbD_and, mask]
    simp [hi, show i < 32 by omega]
  · intro i hi
    simp only [BitVec.getLsbD_setWidth, BitVec.getLsbD_and, mask]
    simp [show ¬ i < 12 by omega]

/-- One more bit flips the oddness of the count when it is 1. -/
theorem onesBelow_succ_odd (n : Nat) (bit : Nat → Bool) :
    (onesBelow (n + 1) bit % 2 == 1) = ((onesBelow n bit % 2 == 1) ^^ bit n) := by
  simp only [onesBelow]
  cases bit n
  · simp
  · rcases Nat.mod_two_eq_zero_or_one (onesBelow n bit) with h | h <;>
      simp [h, Nat.add_mod]

/-- No bit at all has an even number of ones. -/
theorem onesBelow_zero_odd (bit : Nat → Bool) : (onesBelow 0 bit % 2 == 1) = false := rfl

/-- The oddness of an exclusive or of two sequences is the exclusive or of their oddnesses. -/
theorem onesBelow_xor_odd (n : Nat) (f g : Nat → Bool) :
    (onesBelow n (fun i => f i ^^ g i) % 2 == 1) = ((onesBelow n f % 2 == 1) ^^ (onesBelow n g % 2 == 1)) := by
  induction n with
  | zero => rfl
  | succ n ih =>
    rw [onesBelow_succ_odd, onesBelow_succ_odd, onesBelow_succ_odd, ih]
    cases f n <;> cases g n <;> simp

/-- A sequence with a single 1 has an odd count exactly when the 1 is counted. -/
theorem onesBelow_single_odd (n k : Nat) :
    (onesBelow n (fun i => decide (i = k)) % 2 == 1) = decide (k < n) := by
  induction n with
  | zero => simp [onesBelow]
  | succ n ih =>
    rw [onesBelow_succ_odd, ih]
    by_cases h : n = k
    · subst h; simp
    · simp [h]
      omega

/-- The oddness of twelve bits is their exclusive or (R101, R102). -/
theorem oddOnes_eq_xor (first : Nat) (bit : Nat → Bool) :
    oddOnes first bit = (bit first ^^ bit (first + 1) ^^ bit (first + 2) ^^ bit (first + 3) ^^ bit (first + 4)
      ^^ bit (first + 5) ^^ bit (first + 6) ^^ bit (first + 7) ^^ bit (first + 8) ^^ bit (first + 9)
      ^^ bit (first + 10) ^^ bit (first + 11)) := by
  simp only [oddOnes, onesBelow_succ_odd, onesBelow_zero_odd]
  simp

/-- Expected P1 is 1 when the upper half has an odd number of ones (R101). -/
theorem p1Expected_eq (p : Payload24) : p1Expected p = BitVec.ofBool (oddOnes 12 p.getLsbD) := by
  rw [p1Expected, popcount_upper, oddOnes]
  rcases Nat.mod_two_eq_zero_or_one (onesBelow 12 fun i => p.getLsbD (12 + i)) with h | h <;> simp [h]

/-- Expected P2 is 1 when the lower half has an even number of ones (R102). -/
theorem p2Expected_eq (p : Payload24) : p2Expected p = BitVec.ofBool (!oddOnes 0 p.getLsbD) := by
  rw [p2Expected, popcount_lower, oddOnes]
  simp only [Nat.zero_add]
  rcases Nat.mod_two_eq_zero_or_one (onesBelow 12 p.getLsbD) with h | h <;> simp [h]

end Sys2Proof.Machine
end

