-- ==== Sys2Proof/Laws/PerInstr.lean ====
section
/-! SUPPORT. Statements made per operation: its request is well formed (30_encoding.md R67), and its request word selects
the row of its mnemonic in R75's table. -/

namespace Sys2Proof.Laws.WellFormed

/-- The request an operation is encoded as passes every check of R74. -/
def Statement (i : Instr) : Prop := i.request.wellFormed = true

theorem opnd_lt {n : Nat} (hn : n ≤ 32) (v : BitVec n) : (v.setWidth 32).toNat < 2 ^ n := by
  have h := v.isLt
  have h2 : (2 : Nat) ^ n ≤ 2 ^ 32 := Nat.pow_le_pow_right (by omega) hn
  rw [BitVec.toNat_setWidth, Nat.mod_eq_of_lt (by omega)]
  exact h

theorem enc_opnd_lt (f : FacilityCode) (c : CardNumber) :
    (f.setWidth 32 <<< 16 ||| c.setWidth 32).toNat < 2 ^ 24 := by
  have hf := f.isLt
  have hc := c.isLt
  simp only [BitVec.toNat_or, BitVec.toNat_shiftLeft, BitVec.toNat_setWidth, Nat.shiftLeft_eq]
  exact Nat.or_lt_two_pow (by omega) (by omega)

theorem enc (facility : FacilityCode) (card : CardNumber) : Statement (.enc facility card) := by
  simpa [Statement, Request.wellFormed, Request.opDefined, Request.mbzClear, Request.strictAllowed,
    Request.operandFits, Instr.request, Instr.mnemonic, Mnemonic.code, Instr.strictBit, Instr.opnd]
    using enc_opnd_lt facility card

theorem dec (strict : Bool) (word : Word26) : Statement (.dec strict word) := by
  simpa [Statement, Request.wellFormed, Request.opDefined, Request.mbzClear, Request.strictAllowed,
    Request.operandFits, Instr.request, Instr.mnemonic, Mnemonic.code, Instr.strictBit, Instr.opnd]
    using opnd_lt (by omega) word

theorem pgen (payload : Payload24) : Statement (.pgen payload) := by
  simpa [Statement, Request.wellFormed, Request.opDefined, Request.mbzClear, Request.strictAllowed,
    Request.operandFits, Instr.request, Instr.mnemonic, Mnemonic.code, Instr.strictBit, Instr.opnd]
    using opnd_lt (by omega) payload

theorem pchk (strict : Bool) (word : Word26) : Statement (.pchk strict word) := by
  simpa [Statement, Request.wellFormed, Request.opDefined, Request.mbzClear, Request.strictAllowed,
    Request.operandFits, Instr.request, Instr.mnemonic, Mnemonic.code, Instr.strictBit, Instr.opnd]
    using opnd_lt (by omega) word

theorem popc (value : U32) : Statement (.popc value) := rfl
theorem wchk (value : U32) : Statement (.wchk value) := rfl
theorem fchk (value : U32) : Statement (.fchk value) := rfl
theorem cchk (value : U32) : Statement (.cchk value) := rfl

end Sys2Proof.Laws.WellFormed
end

