-- ==== Sys2Proof/Laws/Response.lean ====
section
/-! SUPPORT. The packed response word, field by field (30_encoding.md R68, R70, 60_exceptions.md R170). -/

namespace Sys2Proof.Machine

@[simp] theorem rspStatus_pack (r : Response) : rspStatus r.pack = r.status.code := by
  simp only [rspStatus, Response.pack]
  ext i hi
  simp [hi, show ¬ 36 + i < 32 by omega, show 36 + i < 40 by omega,
    BitVec.getLsbD_of_ge r.field.code (36 + i - 32) (by omega), BitVec.getLsbD_of_ge r.result (36 + i) (by omega)]

@[simp] theorem rspField_pack (r : Response) : rspField r.pack = r.field.code := by
  simp only [rspField, Response.pack]
  ext i hi
  simp [hi, show 32 + i < 36 by omega, show 32 + i < 40 by omega]

@[simp] theorem rspResult_pack (r : Response) : rspResult r.pack = r.result := by
  simp only [rspResult, Response.pack]
  ext i hi
  simp [hi, show i < 36 by omega, show i < 40 by omega]

@[simp] theorem raise_pack_outOfRangeWord : (Response.raise .outOfRangeWord).pack = 0x3100000000#40 := by decide
@[simp] theorem raise_pack_outOfRangeFacility : (Response.raise .outOfRangeFacility).pack = 0x3200000000#40 := by decide
@[simp] theorem raise_pack_outOfRangeCard : (Response.raise .outOfRangeCard).pack = 0x3300000000#40 := by decide
@[simp] theorem raise_pack_parityCheckFailed : (Response.raise .parityCheckFailed).pack = 0x4400000000#40 := by decide
@[simp] theorem raise_pack_illegalRequest : (Response.raise .illegalRequest).pack = 0x5500000000#40 := by decide

@[simp] theorem Response.ofResult_ok {n : Nat} (r : BitVec n) : Response.ofResult (.ok r) = Response.ok r := rfl
@[simp] theorem Response.ofResult_error {n : Nat} (e : Failure) :
    Response.ofResult (.error e : Except Failure (BitVec n)) = Response.raise e := rfl

/-- A success's response word is its result with zeros on the left (R68, R71). -/
theorem ok_pack {n : Nat} (r : BitVec n) : (Response.ok r).pack = (r.setWidth 32).setWidth 40 := by
  simp [Response.ok, Response.pack, Status.code, FieldId.code]

/-- Only the statuses' codes 0 is success (R165). -/
@[simp] theorem Status.code_eq_zero (st : Status) : st.code = 0 ↔ st = .ok := by
  cases st <;> decide

theorem Status.code_injective : Function.Injective Status.code := by
  intro a b; cases a <;> cases b <;> decide

theorem FieldId.code_injective : Function.Injective FieldId.code := by
  intro a b; cases a <;> cases b <;> decide

end Sys2Proof.Machine
end

