-- ==== Sys2Proof/Laws/State.lean ====
section
/-! SUPPORT. One lemma per field of State per update, true by rfl, and what each shared operation can do. -/

namespace Sys2Proof.Machine

variable (s : State) (request : PortWord) (r : Response)

@[simp] theorem State.record_req : (s.record request r).req = s.req := rfl
@[simp] theorem State.record_pending : (s.record request r).pending = s.pending := rfl
@[simp] theorem State.record_trace : (s.record request r).trace = s.trace ++ [⟨request, r.pack⟩] := rfl

@[simp] theorem State.drive_req : (s.drive request).req = request := rfl
@[simp] theorem State.drive_pending : (s.drive request).pending = s.pending := rfl
@[simp] theorem State.drive_trace : (s.drive request).trace = s.trace := rfl
@[simp] theorem State.drive_drive (q : PortWord) : (s.drive q).drive request = s.drive request := rfl
@[simp] theorem State.drive_self : s.drive s.req = s := rfl

@[simp] theorem State.reset_req : State.reset.req = 0 := rfl
@[simp] theorem State.reset_pending : State.reset.pending = [] := rfl
@[simp] theorem State.reset_trace : State.reset.trace = [] := rfl

@[simp] theorem State.withFetchWord_eq (nbits w : Nat) :
    s.withFetchWord nbits w = s.drive (BitVec.ofNat 40 w) := rfl

@[simp] theorem State.rsp_drive : (s.drive request).rsp = respond request := rfl

/-- The host's part of a step never touches the record. -/
@[simp] theorem State.presentNext_trace : s.presentNext.trace = s.trace := by
  unfold State.presentNext; split <;> rfl

/-- With nothing queued the port keeps its value. -/
theorem State.presentNext_nil (h : s.pending = []) : s.presentNext = s := by
  simp [State.presentNext, h]

/-- With a queue, its head goes on the port. -/
theorem State.presentNext_cons {q : PortWord} {qs : List PortWord} (h : s.pending = q :: qs) :
    s.presentNext = { s with req := q, pending := qs } := by
  simp [State.presentNext, h]

@[simp] theorem thenPresentNext_next : thenPresentNext (.next s) = .next s.presentNext := rfl

@[simp] theorem finish_eq {n : Nat} (i : Instr) (result : Except Failure (BitVec n)) :
    finish i result s = .next (s.record (encode i) (Response.ofResult result)) := rfl

@[simp] theorem answerIllegal_eq :
    answerIllegal s = .next (s.record s.req (Response.raise Failure.illegalRequest)) := rfl

/-- A well-formed request's step is its operation, then the host's next request. -/
theorem step_of_decode_ok {i : Instr} (h : decode s.req = .ok i) :
    step s = thenPresentNext (exec i s) := by
  simp [step, h]

/-- A malformed request's step is the IllegalRequest answer, then the host's next request. -/
theorem step_of_decode_error {m : Malformation} (h : decode s.req = .error m) :
    step s = thenPresentNext (answerIllegal s) := by
  simp [step, h]

end Sys2Proof.Machine
end

