-- ==== Sys2Proof/Laws/Steps.lean ====
section
/-! SUPPORT. What an operation and a step can do, said once: each records one transaction; a step also presents the host's
next request. -/

namespace Sys2Proof.Machine

/-- Every operation answers a next state that records its own request with some response, and changes nothing else. -/
theorem exec_records (i : Instr) (s : State) :
    ∃ r : Response, exec i s = .next (s.record (encode i) r) := by
  cases i <;> exact ⟨_, rfl⟩

/-- Every step answers: it records the request on the port with some response and presents the next request. -/
theorem step_records (s : State) :
    ∃ (request : PortWord) (r : Response), step s = .next (s.record request r).presentNext := by
  unfold step
  split
  · rename_i i _
    obtain ⟨r, h⟩ := exec_records i s
    exact ⟨_, r, by rw [h]; rfl⟩
  · exact ⟨_, _, rfl⟩

/-- A step's record grows by exactly one transaction. -/
theorem step_trace {s t : State} (h : step s = .next t) : ∃ x, t.trace = s.trace ++ [x] := by
  obtain ⟨q, r, hs⟩ := step_records s
  rw [hs] at h
  cases h
  exact ⟨⟨q, r.pack⟩, by simp⟩

/-- Issuing a request is the step of the driven state (R72). -/
theorem step_issue (r : PortWord) (s : State) : step (s.drive r) = .next (issue r s) := by
  obtain ⟨q, a, h⟩ := step_records (s.drive r)
  simp [issue, h]

end Sys2Proof.Machine
end

