-- ==== Sys2Proof/Laws/Program.lean ====
section
/-! SUPPORT. What the lines of a program bind, and what one line can do (30_encoding.md R76, 60_exceptions.md R175). -/

namespace Sys2Proof.Machine

variable {l : Line} {ls : List Line} {env : Bindings} {s : State} {r : PortWord}

@[simp] theorem boundBy_nil (ls : List Line) (env : Bindings) : boundBy ls [] env = env := by simp [boundBy]

/-- The first line's binding is the oldest of those added. -/
@[simp] theorem boundBy_cons (l : Line) (ls : List Line) (t : Transaction) (ts : List Transaction) (env : Bindings) :
    boundBy (l :: ls) (t :: ts) env = boundBy ls ts ((l.name, rspResult t.rsp) :: env) := by simp [boundBy]

@[simp] theorem eval_lit (v : U32) : (Expr.lit v).eval env = some v := rfl
@[simp] theorem eval_name (n : Name) : (Expr.name n).eval env = env.lookup n := rfl

/-- A line has a request exactly when its operand has a value, and the request then carries that value (R76). -/
theorem request_eq_some : l.request env = some r ↔
    ∃ v, l.expr.eval env = some v ∧ Request.toWord ⟨l.mnemonic.code, 0, l.strict, v⟩ = r := by
  simp [Line.request]

theorem request_eq_none : l.request env = none ↔ l.expr.eval env = none := by simp [Line.request]

@[simp] theorem runLines_nil : runLines [] env s = ⟨env, s, .finished⟩ := rfl

/-- A line that names an unbound value ends the program before its request. -/
theorem runLines_unbound (h : l.request env = none) : runLines (l :: ls) env s = ⟨env, s, .unbound⟩ := by
  simp [runLines, h]

/-- A response of status 0 binds the line's name to its result and the program goes on. -/
theorem runLines_bind (h : l.request env = some r) (hr : rspStatus (respond r) = 0) :
    runLines (l :: ls) env s = runLines ls ((l.name, rspResult (respond r)) :: env) (issue r s) := by
  simp only [BitVec.ofNat_eq_ofNat] at hr
  simp [runLines, h, hr]

/-- A response of another status ends the program with its status and field. -/
theorem runLines_fail (h : l.request env = some r) (hr : rspStatus (respond r) ≠ 0) :
    runLines (l :: ls) env s =
      ⟨env, issue r s, .failed (rspStatus (respond r)) (rspField (respond r))⟩ := by
  simp only [ne_eq, BitVec.ofNat_eq_ofNat] at hr
  simp [runLines, h, hr]

end Sys2Proof.Machine
end

