-- ==== Sys2Proof/Laws/Range.lean ====
section
/-! SUPPORT. What admitting a value can do (42_range.md R120 to R123). -/

namespace Sys2Proof.Machine

theorem checkBound_of_le {bound v : U32} (e : Failure) (h : v.toNat ≤ bound.toNat) : checkBound bound e v = .ok v := by
  simp [checkBound, BitVec.lt_def, Nat.not_lt.2 h]

theorem checkBound_of_lt {bound v : U32} (e : Failure) (h : bound.toNat < v.toNat) : checkBound bound e v = .error e := by
  simp [checkBound, BitVec.lt_def, h]

/-- An admitted value is returned unchanged and lies under the bound; nothing else is returned. -/
theorem checkBound_ok {bound v r : U32} {e : Failure} (h : checkBound bound e v = .ok r) : r = v ∧ v.toNat ≤ bound.toNat := by
  by_cases hv : v.toNat ≤ bound.toNat
  · rw [checkBound_of_le e hv] at h
    exact ⟨by simpa [eq_comm] using h, hv⟩
  · rw [checkBound_of_lt e (by omega)] at h
    cases h

@[simp] theorem wordMax_toNat : wordMax.toNat = 67108863 := rfl
@[simp] theorem facilityMax_toNat : facilityMax.toNat = 255 := rfl
@[simp] theorem cardMax_toNat : cardMax.toNat = 65535 := rfl

end Sys2Proof.Machine
end

