-- ==== Sys2Proof/Tests/Slice0.lean ====
section
/-! SUPPORT. Tests. Every expected value is the spec's: 95_test_vectors.md (the vector is named), 30_encoding.md R75 and R78,
or the rule named. Then, for each statement with hypotheses, a state and operands that meet them. -/

open Sys2Proof Sys2Proof.Machine

namespace Sys2Proof.Tests

/-- A state with a request word on its port. -/
def onPort (r : PortWord) : State := State.reset.drive r

/-- The state a step answers, where it answers one. -/
def nextOf : Host.Outcome State Fault Refusal → Option State
  | .next s => some s
  | .fault _ => none
  | .refused _ => none

/-- The response one step records for a request word. -/
def stepRsp (r : PortWord) : Option PortWord :=
  (nextOf (step (onPort r))).bind fun t => t.trace.getLast?.map Transaction.rsp

/-! ### Well-formedness: one ill-formed request for each check (R74), and a well-formed one -/

theorem test_wf_accepts : Request.wellFormed ⟨1, 0, true, 0x3FFFFFF⟩ = true := by decide
theorem test_wf_refuses_reserved_op : Request.opDefined ⟨8, 0, false, 0⟩ = false := by decide
theorem test_wf_refuses_mbz : Request.mbzClear ⟨0, 1, false, 0⟩ = false := by decide
theorem test_wf_refuses_strict : Request.strictAllowed ⟨4, 0, true, 1⟩ = false := by decide
theorem test_wf_refuses_operand_enc : Request.operandFits ⟨0, 0, false, 0x1000000⟩ = false := by decide
theorem test_wf_refuses_operand_dec : Request.operandFits ⟨1, 0, false, 0x4000000⟩ = false := by decide
theorem test_wf_refuses_line_strict : Line.wellFormed [] ⟨0, .ENC, true, .lit 0⟩ = false := by decide
theorem test_wf_refuses_line_name : Line.wellFormed [1] ⟨0, .ENC, false, .name 2⟩ = false := by decide
theorem test_wf_refuses_line_slice : Line.wellFormed [1] ⟨0, .ENC, false, .slice 1 32 0⟩ = false := by decide
theorem test_wf_refuses_line_shift : Line.wellFormed [] ⟨0, .ENC, false, .shl (.lit 1) 32⟩ = false := by decide

/-! ### Decoding: words written bit by bit from R75's patterns, with V1's operands -/

theorem test_decode_enc : decode 0b0000000000000000101000000100111101110100#40 = .ok (.enc 160 20340) := by decide
theorem test_decode_dec : decode 0b0001000000000011010000001001111011101001#40 = .ok (.dec false 0x3409EE9) := by decide
theorem test_decode_dec_strict : decode 0b0001000100000011010000001001111011101000#40 = .ok (.dec true 0x3409EE8) := by decide
theorem test_decode_pgen : decode 0b0010000000000000101000000100111101110100#40 = .ok (.pgen 0xA04F74) := by decide
theorem test_decode_pchk : decode 0b0011000000000001010000001001111011101001#40 = .ok (.pchk false 0x1409EE9) := by decide
theorem test_decode_pchk_strict : decode 0b0011000100000001010000001001111011101001#40 = .ok (.pchk true 0x1409EE9) := by decide
theorem test_decode_popc : decode 0b0100000010000000000000000000000000000000#40 = .ok (.popc 0x80000000) := by decide
theorem test_decode_wchk : decode 0b0101000000000100000000000000000000000000#40 = .ok (.wchk 67108864) := by decide
theorem test_decode_fchk : decode 0b0110000000000000000000000000000010100000#40 = .ok (.fchk 160) := by decide
theorem test_decode_cchk : decode 0b0111000000000000000000000100111101110100#40 = .ok (.cchk 20340) := by decide

/-- ILL-1, ILL-4, ILL-9, ILL-18: refused by name. -/
theorem test_decode_refuses : decode 0x8000000000 = .error .reservedOp ∧ decode 0x0200000000 = .error .mustBeZero ∧
    decode 0x4100000001 = .error .strictNotAllowed ∧ decode 0x1004000000 = .error .operandMustBeZero := by decide

theorem test_decodeTableWord : decodeTableWord 40 0x1103409EE9 = some (.dec true 0x3409EE9) ∧
    decodeTableWord 40 0xF000000000 = none := by decide

/-! ### One step of each operation -/

/-- ENC-3 (V1). -/
theorem test_step_enc_known_vector : stepRsp 0x0000A04F74 = some 0x0003409EE9 := by decide
/-- ENC-5: one bit in each half. -/
theorem test_step_enc_both_halves : stepRsp 0x0000010001 = some 0x0002020002 := by decide
/-- DEC-9 (V2). -/
theorem test_step_dec_known_vector : stepRsp 0x1003409E1C = some 0x0001A04F0E := by decide
/-- DEC-7 strict: V1 with P1 flipped. -/
theorem test_step_dec_strict_fails : stepRsp 0x1101409EE9 = some 0x4400000000 := by decide
/-- PGEN-12. -/
theorem test_step_pgen : stepRsp 0x2000001001 = some 0x0002000000 := by decide
/-- PGEN-6: the highest bit of the lower half. -/
theorem test_step_pgen_half_border : stepRsp 0x2000000800 = some 0x0000000000 := by decide
/-- PCHK-6. -/
theorem test_step_pchk : stepRsp 0x3003409EE8 = some 0x0000000016 := by decide
/-- PCHK-15 strict. -/
theorem test_step_pchk_strict_fails : stepRsp 0x310340BEE9 = some 0x4400000000 := by decide
/-- POPC-4: bit 5 of the count. -/
theorem test_step_popc_all_ones : stepRsp 0x40FFFFFFFF = some 0x0000000020 := by decide
/-- POPC-9. -/
theorem test_step_popc : stepRsp 0x4003409EE9 = some 0x000000000D := by decide
/-- RNG-2 and RNG-3. -/
theorem test_step_wchk_border :
    stepRsp 0x5003FFFFFF = some 0x0003FFFFFF ∧ stepRsp 0x5004000000 = some 0x3100000000 := by decide
/-- RNG-9 and RNG-12. -/
theorem test_step_fchk_border :
    stepRsp 0x60000000FF = some 0x00000000FF ∧ stepRsp 0x60000100A0 = some 0x3200000000 := by decide
/-- RNG-15 and RNG-17. -/
theorem test_step_cchk_border :
    stepRsp 0x700000FFFF = some 0x000000FFFF ∧ stepRsp 0x7000011170 = some 0x3300000000 := by decide
/-- ILL-14 and ILL-21. -/
theorem test_step_illegal : stepRsp 0x0001A04F74 = some 0x5500000000 ∧ stepRsp 0x1104000000 = some 0x5500000000 := by decide
/-- R191. -/
theorem test_reset_port : State.reset.rsp = 0x0000000001 := by decide

/-! ### The host layer -/

/-- HEX-6, HEX-8, HEX-10. -/
theorem test_hex_text : parseWord26FromHex (some "03FFFFFF".toList) = .ok 67108863 ∧
    parseWord26FromHex (some "FFFFFFFF".toList) = .error ⟨.outOfRange, .word⟩ ∧
    parseWord26FromHex (some "000000001".toList) = .error ⟨.invalidFormat, .word⟩ := by decide
/-- FAC-2, FAC-5, FAC-7, FAC-9. -/
theorem test_facility_text :
    parseFacilityText (· == ' ') false none (some "fC160".toList) = .ok 160 ∧
    parseFacilityText (· == ' ') true (some 256) (some "FC256".toList) = .error ⟨.outOfRange, .facility⟩ ∧
    parseFacilityText (· == ' ') true none (some "FC 160".toList) = .error ⟨.invalidFormat, .facility⟩ ∧
    parseFacilityText (· == ' ') false none (some "0255".toList) = .ok 255 := by decide
/-- FAC-10: depends on FAC_TRIM. -/
theorem test_facility_trim :
    parseFacilityText (· == ' ') true none (some " 160".toList) = .ok 160 ∧
    parseFacilityText (· == ' ') false none (some " 160".toList) = .error ⟨.invalidFormat, .facility⟩ := by decide
/-- REN-3. -/
theorem test_render : renderHex 0x3409EE9 true = "03409EE9".toList ∧ renderHex 0x3409EE9 false = "03409ee9".toList ∧
    renderBinary 0x3409EE9 = "11010000001001111011101001".toList := by decide
/-- CNV-6. -/
theorem test_convert_aggregate :
    convert (· == ' ') false none (.fromDecimal 54566632) {} = .ok (.aggregate
      ⟨"03409ee8".toList, 54566632, 160, 20340, false, .fromDecimal, none⟩) := by decide
/-- CNV-8 and CNV-14. -/
theorem test_convert_errors :
    convert (· == ' ') false none (.fromDecimal 54566632) { strict := true, rawHex := true } =
      .error ⟨.parityCheckFailed, .parity⟩ ∧
    convert (· == ' ') false none (.fromFacilityCard (some "256".toList) 70000) {} =
      .error ⟨.outOfRange, .facility⟩ := by decide
/-- P3: the card's error stops CONVFC 255, 65536 at its second line, with only t1 bound. -/
theorem test_program_stops :
    (runLines ((Pseudo.convfc 0 (.lit 255) (.lit 65536)).expand 1 2 3) [] State.reset).ended = .failed 3 3 ∧
    (runLines ((Pseudo.convfc 0 (.lit 255) (.lit 65536)).expand 1 2 3) [] State.reset).bindings = [(1, 255)] := by decide

/-! ### Witnesses: the statements' hypotheses can be met -/

theorem witness_AllZeroRequestAnswersOne : State.reset.req = 0 := rfl
theorem witness_StepRunsDecodedOperation :
    decode (onPort 0x1103409EE9).req = .ok (.dec true 0x3409EE9) ∧ (onPort 0x1103409EE9).pending = [] ∧
    decode (⟨0x40FFFFFFFF, [0xF000000000], []⟩ : State).req = .ok (.popc 0xFFFFFFFF) ∧
    (⟨0x40FFFFFFFF, [0xF000000000], []⟩ : State).pending = 0xF000000000 :: [] := by decide
theorem witness_MatchMaskSelectsOperation :
    (⟨.DEC, 0x1000000000, 0xFEFC000000⟩ : OpcodeRow) ∈ opcodeRows ∧
    ∀ row ∈ opcodeRows, (onPort 0x1004000000).req &&& row.mask ≠ row.pattern := by decide
theorem witness_Malformed_op : Malformed (onPort 0x8000000000).req := .inl (by decide)
theorem witness_Malformed_mbz : Malformed (onPort 0x3800000000).req := .inr (.inl (by decide))
theorem witness_Malformed_strict : Malformed (onPort 0x7100000001).req := .inr (.inr (.inl (by decide)))
theorem witness_Malformed_opnd24 : Malformed (onPort 0x0001000000).req := .inr (.inr (.inr (.inl (by decide))))
theorem witness_Malformed_opnd26 : Malformed (onPort 0x3004000000).req := .inr (.inr (.inr (.inr (by decide))))
theorem witness_OperationsChangeOnlyTheRecord :
    exec (.popc 7) State.reset = .next (State.reset.after 0x4000000007 0x0000000003) := by
  rw [show exec (.popc 7) State.reset = .next (State.reset.record (encode (.popc 7)) (.ofResult (opPopc 7))) from rfl,
    show State.reset.record (encode (.popc 7)) (.ofResult (opPopc 7)) = State.reset.after 0x4000000007 0x0000000003
      from by decide]
/-- A faithful and legal record that is not empty, and a step from it. -/
theorem witness_StepKeepsTrace :
    let s : State := ⟨0x1100000000, [], [⟨0x0000A04F74, 0x0003409EE9⟩]⟩
    TraceFaithful s ∧ TraceLegal s ∧ ∃ t, step s = .next t := by
  refine ⟨?_, ?_, _, rfl⟩ <;> intro t h <;> simp only [List.mem_singleton] at h <;> subst h
  · decide
  · exact .inl (by decide)
theorem witness_ErrorResponsesAreTheFive : rspStatus 0x5500000000 ≠ 0 ∧ rspStatus 0x6600000000 ≠ 0 := by decide
theorem witness_ErrorResponseShape : rspStatus (respond 0x5004000000) ≠ 0 ∧ rspStatus (respond 0x5003FFFFFF) = 0 := by decide
theorem witness_ResponseDependsOnRequestOnly :
    (⟨5, [], []⟩ : State).req = (⟨5, [1], [⟨0, 1⟩]⟩ : State).req ∧ (⟨5, [], []⟩ : State) ≠ ⟨5, [1], [⟨0, 1⟩]⟩ := by decide
theorem witness_RepeatedRequestRepeatsResponse : State.reset.pending = [] := rfl
theorem witness_EncAnswersWord :
    opOf (onPort 0x0100A04F74).req = 0 ∧ (onPort 0x0100A04F74).req.getLsbD 32 = true ∧
    opOf (onPort 0x0001000000).req = 0 ∧ (onPort 0x0001000000).req.extractLsb' 24 8 ≠ 0 := by decide
/-- V1 is valid and V1 with P2 flipped is not; word 0 is not and word 1 is. -/
theorem witness_parity : parityValid 0x3409EE9 = true ∧ parityValid 0x3409EE8 = false ∧
    parityValid 0 = false ∧ parityValid 1 = true ∧ parityOk 0x3409EE9 = 1 ∧ parityOk 0x3409EE8 = 0 := by decide
theorem witness_DecAnswersFields :
    opOf (onPort 0x1004000000).req = 1 ∧ (onPort 0x1004000000).req.extractLsb' 26 6 ≠ 0 := by decide
theorem witness_PgenAnswersParityBits :
    opOf (onPort 0x2100A04F74).req = 2 ∧ (onPort 0x2100A04F74).req.getLsbD 32 = true ∧
    opOf (onPort 0x20FF000000).req = 2 ∧ (onPort 0x20FF000000).req.extractLsb' 24 8 ≠ 0 := by decide
theorem witness_PchkAnswersComparison :
    opOf (onPort 0x3004000000).req = 3 ∧ (onPort 0x3004000000).req.extractLsb' 26 6 ≠ 0 := by decide
theorem witness_PopcAnswersCount :
    opOf (onPort 0x4100000001).req = 4 ∧ (onPort 0x4100000001).req.getLsbD 32 = true := by decide
theorem witness_WchkAdmitsWords : (67108863#32).toNat ≤ 67108863 ∧ 67108863 < (67108864#32).toNat ∧
    opOf (onPort 0x5100000001).req = 5 ∧ (onPort 0x5100000001).req.getLsbD 32 = true := by decide
theorem witness_FchkAdmitsFacilities : (255#32).toNat ≤ 255 ∧ 255 < (256#32).toNat ∧
    opOf (onPort 0x6100000001).req = 6 ∧ (onPort 0x6100000001).req.getLsbD 32 = true := by decide
theorem witness_CchkAdmitsCards : (65535#32).toNat ≤ 65535 ∧ 65535 < (65536#32).toNat ∧
    opOf (onPort 0x7100000001).req = 7 ∧ (onPort 0x7100000001).req.getLsbD 32 = true := by decide
/-- Two bits of the lower half, two of the upper half, and one of each, at the borders of the halves. -/
theorem witness_BitErrorsDetected : parityOk 0x3409EE9 = 1 ∧
    parityOk (0x3409EE9 ^^^ 1#26 <<< 0 ^^^ 1#26 <<< 12) = 1 ∧ parityOk (0x3409EE9 ^^^ 1#26 <<< 13 ^^^ 1#26 <<< 25) = 1 ∧
    parityOk (0x3409EE9 ^^^ 1#26 <<< 12 ^^^ 1#26 <<< 13) = 0 := by decide
theorem witness_ParityGeneratorFacts :
    (0xA04F74#24).extractLsb' 12 12 = (0xA04F0E#24).extractLsb' 12 12 ∧
    (0xA04F74#24).extractLsb' 0 12 = (0x000F74#24).extractLsb' 0 12 := by decide
theorem witness_ParityCheckAgreesWithDecode : opPchk false 0x3409EE9 = .ok ((0x1F#5).setWidth 32) := by decide
theorem witness_WellFormedProgramNeverUnbound :
    programWellFormed [] ((Pseudo.convfc 0 (.lit 160) (.lit 20340)).expand 1 2 3) = true := by decide
theorem witness_PseudoInstructionsNeverIllegal :
    (Pseudo.convfc 0 (.lit 160) (.name 4)).Fresh 1 2 3 ∧ opWchk 67108863 = .ok 67108863 ∧ opFchk 255 = .ok 255 ∧
    opCchk 65535 = .ok 65535 := by
  refine ⟨⟨by decide, ?_⟩, by decide, by decide, by decide⟩
  decide
theorem witness_ConvdIsConvertFromDecimal : (1 : Name) ≠ 0 := by decide
theorem witness_ConvfcIsConvertFromFacilityCard :
    parseFacilityText (· == ' ') false none (some "FC160".toList) = .ok 160 ∧ ([0, 1, 2, 3] : List Name).Nodup := by decide
theorem witness_HexTextParses : "4000000".toList.map hexValue? = [4, 0, 0, 0, 0, 0, 0].map some ∧
    0x3FFFFFF < Nat.ofDigits 16 [4, 0, 0, 0, 0, 0, 0].reverse ∧
    "3FFFFFF".toList.map hexValue? = [3, 15, 15, 15, 15, 15, 15].map some ∧
    Nat.ofDigits 16 [3, 15, 15, 15, 15, 15, 15].reverse ≤ 0x3FFFFFF ∧
    (∃ c ∈ "zz".toList, hexValue? c = none) :=
  ⟨by decide, by simp [Nat.ofDigits], by decide, by simp [Nat.ofDigits], 'z', by decide, by decide⟩
/-- " FC256" with a space before: trimmed, the tag and the numeral 256, one past the bound. -/
theorem witness_FacilityTextParses :
    (∃ c ∈ "FC256".toList, (c == ' ') = false) ∧ (∀ c ∈ [' '] ++ [], (c == ' ') = true) ∧
    "FC256".toList = ['F', 'C'] ++ "256".toList ∧ (∀ c ∈ "256".toList, c ∈ "0123456789".toList) ∧
    255 < Nat.ofDigits 10 ("256".toList.reverse.map fun c => c.toNat - '0'.toNat) ∧
    Nat.ofDigits 10 ("255".toList.reverse.map fun c => c.toNat - '0'.toNat) ≤ 255 :=
  ⟨⟨'F', by decide, by decide⟩, by simp, by decide, by simp, by simp [Nat.ofDigits], by simp [Nat.ofDigits]⟩
/-- The same numeral 256 with `INT_PARSE_MAX` at 256 and one below it. -/
theorem witness_FacilityTextParses_max :
    (∃ m, some 255 = some m ∧ m < Nat.ofDigits 10 ("256".toList.reverse.map fun c => c.toNat - '0'.toNat)) ∧
    (∀ m, some 256 = some m → Nat.ofDigits 10 ("256".toList.reverse.map fun c => c.toNat - '0'.toNat) ≤ m) :=
  ⟨⟨255, rfl, by simp [Nat.ofDigits]⟩, by rintro m ⟨⟩; simp [Nat.ofDigits]⟩
/-- "FC 160" is a text that is not blank, has no blank at either end, and is no tag and numeral. -/
theorem witness_FacilityTextParses_no_match :
    (∃ c ∈ "FC 160".toList, (c == ' ') = false) ∧
    (∀ c ∈ "FC 160".toList.head?, (c == ' ') = false) ∧ (∀ c ∈ "FC 160".toList.getLast?, (c == ' ') = false) ∧
    ¬ ∃ tag ∈ ([[], ['F', 'C'], ['F', 'c'], ['f', 'C'], ['f', 'c']] : List Text), ∃ ds : Text,
      (ds ≠ [] ∧ ∀ c ∈ ds, c ∈ "0123456789".toList) ∧ "FC 160".toList = tag ++ ds := by
  refine ⟨⟨'F', by decide, by decide⟩, by simp, by simp, ?_⟩
  rintro ⟨tag, htag, ds, ⟨_, digits⟩, h⟩
  have blank : ' ' ∈ tag ++ ds := h ▸ by decide
  rcases List.mem_append.1 blank with m | m
  · simp only [List.mem_cons, List.not_mem_nil, or_false] at htag
    rcases htag with rfl | rfl | rfl | rfl | rfl <;> simp at m
  · exact absurd (digits _ m) (by decide)
theorem witness_TextRoundTrips : Config.AdmittedIsWs (· == ' ') ∧ Config.AdmittedIntParseMax (some 256) ∧
    Config.AdmittedIntParseMax none := by
  refine ⟨⟨by decide, ?_⟩, by rintro m ⟨⟩; decide, by rintro m ⟨⟩⟩
  intro c h
  by_contra hc
  simp only [Bool.not_eq_false, beq_iff_eq] at hc
  subst hc
  exact absurd h (by decide)
/-- Two good lines, of which the second reads a slice of the first's result, then a failing one (`last` is not empty). -/
theorem witness_ProgramStopsAtFirstError :
    let ls : List Line := [⟨1, .POPC, false, .lit 0xFF⟩, ⟨2, .FCHK, false, .slice 1 3 2⟩, ⟨3, .FCHK, false, .lit 256⟩]
    (runLines ls [] State.reset).state.trace =
      [⟨0x40000000FF, 8⟩, ⟨0x6000000002, 2⟩] ++ [⟨0x6000000100, 0x3200000000⟩] ∧
    (runLines ls [] State.reset).ended = .failed 3 2 ∧
    (runLines [⟨1, .POPC, false, .name 2⟩] [] State.reset).ended = .unbound := by decide
/-- The border cases of a slice and of a shift; the values are computed by hand. -/
theorem witness_ExpressionValues :
    (Expr.slice 1 31 0).eval [(1, 0x80000001)] = some 0x80000001 ∧ (Expr.slice 1 31 31).eval [(1, 0x80000001)] = some 1 ∧
    (Expr.shl (.name 1) 31).eval [(1, 3)] = some 0x80000000 ∧ (Expr.shl (.name 1) 0).eval [(1, 3)] = some 3 ∧
    (Expr.and (.lit 0xC) (.lit 0xA)).eval [] = some 8 ∧ (Expr.xor (.lit 0xC) (.lit 0xA)).eval [] = some 6 ∧
    (Expr.or (.lit 0xC) (.lit 0xA)).eval [] = some 14 ∧ (Expr.xor (.lit 0xC) (.name 1)).eval [] = none := by decide
theorem witness_ConversionAggregate :
    parseWord26FromHex (some "03409E1C".toList) = .ok 0x3409E1C ∧ parityValid 0x3409E1C = true ∧
    parseWord26FromHex (some "4000000".toList) = .error ⟨.outOfRange, .word⟩ ∧ 0x3FFFFFF < (0x4000000#32).toNat ∧
    parseFacilityText (· == ' ') false none (some "FC255".toList) = .ok 255 := by decide
theorem witness_Conversions :
    inputWord (· == ' ') false none (.fromDecimal 54566632) = .ok 0x3409EE8 ∧ parityValid 0x3409EE8 = false ∧
    inputWord (· == ' ') false none (.fromHex (some "03409E1C".toList)) = .ok 0x3409E1C ∧ parityValid 0x3409E1C = true ∧
    inputWord (· == ' ') false none (.fromHex none) = .error ⟨.invalidFormat, .word⟩ := by decide
theorem witness_FacilityCheckedBeforeCard :
    parseFacilityText (· == ' ') false none (some "256".toList) = .error ⟨.outOfRange, .facility⟩ ∧
    parseFacilityText (· == ' ') false none (some "255".toList) = .ok 255 ∧ 65535 < (70000#32).toNat := by decide

end Sys2Proof.Tests
end

section
/-! PROOFS: the state family (10_state.md). The decoder and the encoder are inverse, and the port's function answers as the
decoded operation does; from the two, one equation says what a step does (`step_eq_record`), and the statements follow. -/

namespace Sys2Proof

/-! ### Slices of an operand field (R67) -/

/-- A widened value is read back from the bits it was put in. -/
theorem extractLsb'_setWidth_self {n w : Nat} (h : n ≤ w) (v : BitVec n) : (v.setWidth w).extractLsb' 0 n = v := by
  ext k hk
  simp [hk, Nat.lt_of_lt_of_le hk h]

/-- A value below `2 ^ k` has no bit set from index `k` on. -/
theorem extractLsb'_eq_zero_of_lt {w k : Nat} (n : Nat) {v : BitVec w} (h : v.toNat < 2 ^ k) : v.extractLsb' k n = 0 := by
  simp [BitVec.extractLsb', Nat.shiftRight_eq_div_pow, Nat.div_eq_of_lt h]

/-- A field whose high bits are zero is its low slice, widened. -/
theorem setWidth_extractLsb'_of_high {k n : Nat} {v : U32} (hkn : k + n = 32) (h : v.extractLsb' k n = 0) :
    (v.extractLsb' 0 k).setWidth 32 = v := by
  ext j hj
  by_cases hjk : j < k
  · simp [hjk, hj]
  · have hbit : v[j] = false := by
      simpa [show j - k < n by omega, show k + (j - k) = j by omega, hj] using congrArg (·.getLsbD (j - k)) h
    simp [hjk, hbit]

/-- The facility and the card together are the low 24 bits of ENC's operand field. -/
theorem facility_or_card_eq_setWidth (v : U32) :
    (v.extractLsb' 16 8).setWidth 32 <<< 16 ||| (v.extractLsb' 0 16).setWidth 32 =
      (v.extractLsb' 0 24).setWidth 32 := by
  ext j hj
  by_cases hc : j < 16
  · simp [hc, hj, show j < 24 by omega]
  · simp [hc, show 16 + (j - 16) = j by omega, show j - 16 < 8 ↔ j < 24 by omega]

/-! ### The decoder and the encoder are inverse (R63, R66, R67) -/

/-- The typed operands of an operation are read back from its operand field. -/
theorem Mnemonic.instr_opnd (i : Instr) : i.mnemonic.instr i.strictBit i.opnd = i := by
  cases i with
  | enc facility card =>
    have hf : (facility.setWidth 32 <<< 16 ||| card.setWidth 32).extractLsb' 16 8 = facility := by
      ext k hk
      simp [hk, show 16 + k < 32 by omega]
    have hc : (facility.setWidth 32 <<< 16 ||| card.setWidth 32).extractLsb' 0 16 = card := by
      ext k hk
      simp [hk, show k < 32 by omega]
    simp only [Mnemonic.instr, Instr.mnemonic, Instr.opnd, hf, hc]
  | dec strict word => exact congrArg (Instr.dec strict) (extractLsb'_setWidth_self (by omega) word)
  | pgen payload => exact congrArg Instr.pgen (extractLsb'_setWidth_self (by omega) payload)
  | pchk strict word => exact congrArg (Instr.pchk strict) (extractLsb'_setWidth_self (by omega) word)
  | popc _ | wchk _ | fchk _ | cchk _ => rfl

/-- The operand field of an operation has no must-be-zero bit set. -/
theorem Instr.operandBad_opnd (i : Instr) : i.mnemonic.format.operandBad i.opnd = false := by
  cases i with
  | enc facility card =>
    simp [Format.operandBad, Instr.mnemonic, Mnemonic.format, Instr.opnd,
      extractLsb'_eq_zero_of_lt 8 (Laws.WellFormed.enc_opnd_lt facility card)]
  | pgen payload =>
    simp [Format.operandBad, Instr.mnemonic, Mnemonic.format, Instr.opnd,
      extractLsb'_eq_zero_of_lt 8 (Laws.WellFormed.opnd_lt (by omega) payload)]
  | dec _ word | pchk _ word =>
    simp [Format.operandBad, Instr.mnemonic, Mnemonic.format, Instr.opnd,
      extractLsb'_eq_zero_of_lt 6 (Laws.WellFormed.opnd_lt (by omega) word)]
  | popc _ | wchk _ | fchk _ | cchk _ => rfl

/-- Only an operation whose format has a strict bit sets `S` (R65). -/
theorem Instr.not_strictBit_without_strict (i : Instr) :
    ¬ (i.strictBit = true ∧ i.mnemonic.format.hasStrict = false) := by
  cases i <;> simp [Instr.strictBit, Instr.mnemonic, Mnemonic.format, Format.hasStrict]

/-- Decoding what the encoder writes gives the operation back. -/
@[simp] theorem decode_encode (i : Instr) : decode (encode i) = .ok i := by
  rw [encode, decode_toWord]
  simp [decodeRequest, Instr.request, i.not_strictBit_without_strict, i.operandBad_opnd, Mnemonic.instr_opnd]

/-- Fields that pass R73's steps 3 and 4 are the request of the operation they select. -/
theorem Mnemonic.request_instr (m : Mnemonic) {strict : Bool} {opnd : U32}
    (hs : strict = true → m.format.hasStrict = true) (ho : m.format.operandBad opnd = false) :
    (m.instr strict opnd).request = ⟨m.code, 0, strict, opnd⟩ := by
  have hmnemonic : (m.instr strict opnd).mnemonic = m := by cases m <;> rfl
  have hstrict : (m.instr strict opnd).strictBit = strict := by
    cases m with
    | DEC | PCHK => rfl
    | ENC | PGEN | POPC | WCHK | FCHK | CCHK =>
      simpa [Mnemonic.format, Format.hasStrict, Mnemonic.instr, Instr.strictBit, eq_comm] using hs
  have hopnd : (m.instr strict opnd).opnd = opnd := by
    cases m with
    | ENC =>
      exact (facility_or_card_eq_setWidth opnd).trans
        (setWidth_extractLsb'_of_high rfl (by simpa [Mnemonic.format, Format.operandBad] using ho))
    | PGEN | DEC | PCHK =>
      exact setWidth_extractLsb'_of_high rfl (by simpa [Mnemonic.format, Format.operandBad] using ho)
    | POPC | WCHK | FCHK | CCHK => rfl
  rw [Instr.request, hmnemonic, hstrict, hopnd]

/-- A word that decodes is the one its operation encodes to. -/
theorem encode_of_decode_ok {r : PortWord} {i : Instr} (h : decode r = .ok i) : encode i = r := by
  obtain ⟨m, hop, hmbz, hstrict, hopnd, rfl⟩ := decodeRequest_ok h
  rw [encode, Mnemonic.request_instr m hstrict hopnd, Mnemonic.code_of_ofCode hop, ← hmbz]
  exact Request.toWord_ofWord r

/-- The host's entry point reads an operation back from its request word. -/
theorem decodeTableWord_encode (nbits : Nat) (i : Instr) : decodeTableWord nbits (encode i).toNat = some i := by
  simp [decodeTableWord, (encode i).isLt]

end Sys2Proof

namespace Sys2Proof.Machine

/-! ### The port answers as the decoded operation does (R73) -/

/-- How an operation ends (R73 step 5). -/
def opResponse : Instr → Response
  | .enc facility card => .ofResult (opEnc facility card)
  | .dec strict word   => .ofResult (opDec strict word)
  | .pgen payload      => .ofResult (opPgen payload)
  | .pchk strict word  => .ofResult (opPchk strict word)
  | .popc value        => .ofResult (opPopc value)
  | .wchk value        => .ofResult (opWchk value)
  | .fchk value        => .ofResult (opFchk value)
  | .cchk value        => .ofResult (opCchk value)

/-- An operation records its request word with its response, and changes nothing else. -/
theorem exec_eq_record (i : Instr) (s : State) : exec i s = .next (s.record (encode i) (opResponse i)) := by
  cases i <;> rfl

/-- A reserved op number is answered IllegalRequest (R73 step 1). -/
theorem answer_of_reserved {r : PortWord} (h : 8 ≤ (r.extractLsb' 36 4).toNat) :
    answer r = .raise .illegalRequest :=
  if_pos h

/-- The port's answer to a request of a defined op number: IllegalRequest when one of R73's steps 2 to 4 applies, and the
response of the selected operation when none does. -/
theorem answer_of_code {r : PortWord} {m : Mnemonic} (h : r.extractLsb' 36 4 = m.code) :
    answer r =
      if r.extractLsb' 33 3 ≠ 0 ∨ (r.getLsbD 32 = true ∧ m.format.hasStrict = false) ∨
          m.format.operandBad (r.extractLsb' 0 32) = true
      then .raise .illegalRequest
      else opResponse (m.instr (r.getLsbD 32) (r.extractLsb' 0 32)) := by
  cases m <;>
    simp [-BitVec.extractLsb'_toNat, answer, h, Mnemonic.code, Mnemonic.format, Format.hasStrict, Format.operandBad,
      Mnemonic.instr, opResponse, ite_or]

/-- A request word that decodes is answered with the response of its operation. -/
theorem answer_of_decode_ok {r : PortWord} {i : Instr} (h : decode r = .ok i) : answer r = opResponse i := by
  obtain ⟨m, hop, hmbz, hstrict, hopnd, rfl⟩ := decodeRequest_ok h
  rw [answer_of_code (Mnemonic.code_of_ofCode hop).symm, if_neg]
  · rfl
  · rintro (hbad | ⟨hs, hno⟩ | hbad)
    · exact hbad hmbz
    · exact Bool.false_ne_true (hno.symm.trans (hstrict hs))
    · exact Bool.false_ne_true (hopnd.symm.trans hbad)

/-- A request word the decoder refuses is answered IllegalRequest. -/
theorem answer_of_decode_error {r : PortWord} {e : Malformation} (h : decode r = .error e) :
    answer r = .raise .illegalRequest := by
  obtain hop | ⟨m, hop, hbad⟩ := decodeRequest_error h
  · exact answer_of_reserved ((Mnemonic.ofCode_eq_none _).1 hop)
  · rw [answer_of_code (Mnemonic.code_of_ofCode hop).symm]
    exact if_pos hbad

/-! ### What a step does -/

/-- Every step records the request on the port with the port's answer, and presents the host's next request. -/
theorem step_eq_record (s : State) : step s = .next (s.record s.req (answer s.req)).presentNext := by
  cases h : decode s.req with
  | ok i =>
    rw [step_of_decode_ok s h, exec_eq_record, encode_of_decode_ok h, answer_of_decode_ok h, thenPresentNext_next]
  | error e => rw [step_of_decode_error s h, answerIllegal_eq, answer_of_decode_error h, thenPresentNext_next]

/-- A step adds one transaction to the record: the request on the port and the response the port gives to it. -/
theorem step_trace_eq {s t : State} (h : step s = .next t) : t.trace = s.trace ++ [⟨s.req, s.rsp⟩] := by
  rw [step_eq_record] at h
  cases h
  rw [State.presentNext_trace, State.record_trace]
  rfl

/-- A faithful record stays faithful when a transaction with the port's answer is added. -/
theorem TraceFaithful.append {s t : State} {r : PortWord} (hs : TraceFaithful s)
    (ht : t.trace = s.trace ++ [⟨r, respond r⟩]) : TraceFaithful t := by
  intro x hx
  rw [ht, List.mem_append, List.mem_singleton] at hx
  obtain hold | rfl := hx
  · exact hs x hold
  · rfl

/-! ### The statements of the state family -/

/-- Settles O11: the one transaction a step adds carries the port's answer to its request. -/
theorem stepKeepsTraceFaithful : Obligations.StepKeepsTraceFaithful :=
  fun _ _ hs h => hs.append (step_trace_eq h)

/-- Settles O10, by the equation that says what an operation records. -/
theorem operationsChangeOnlyTheRecord : Obligations.OperationsChangeOnlyTheRecord := by
  intro i s t h
  rw [exec_eq_record] at h
  cases h
  exact ⟨rfl, rfl, _, rfl⟩

/-- Settles O15: each of the two steps records the port's answer to the one request. -/
theorem responseDependsOnRequestOnly : Obligations.ResponseDependsOnRequestOnly := by
  intro s s' hreq
  have hs := step_eq_record s
  have hs' := step_eq_record s'
  refine ⟨_, _, s.rsp, hs, hs', step_trace_eq hs, ?_⟩
  rw [step_trace_eq hs', State.rsp, State.rsp, hreq]

/-- Settles O1: the record after reset is empty, so both its invariants hold. -/
theorem resetHoldsNothing : Obligations.ResetHoldsNothing :=
  ⟨State.reset_trace, State.reset_pending, State.reset_req, by simp [TraceFaithful], by simp [TraceLegal]⟩

/-- Settles O5: the entry point drives the operation's own word, which decodes to the operation. -/
theorem fetchedWordRuns : Obligations.FetchedWordRuns := by
  intro s i
  have hdrive : s.withFetchWord 40 (encode i).toNat = s.drive (encode i) := by simp
  refine ⟨decodeTableWord_encode 40 i, ?_⟩
  rw [hdrive, step_of_decode_ok (s.drive (encode i)) (decode_encode i)]

end Sys2Proof.Machine
end

section
/-! PROOFS: the memory family (20_memory.md). No memory stands between two requests: a step with a queue and a step without
one each record the port's own answer, whatever the record held before, so answers follow neither order nor history. -/

namespace Sys2Proof.Machine

/-! ### A step of a state written out -/

/-- With a queue, the request on the port is answered and the head of the queue takes its place. -/
theorem step_of_queued (a b : PortWord) (qs : List PortWord) (tr : List Transaction) :
    step ⟨a, b :: qs, tr⟩ = .next ⟨b, qs, tr ++ [⟨a, respond a⟩]⟩ :=
  step_eq_record _

/-- With nothing queued, the request on the port is answered and stays there. -/
theorem step_of_none_queued (a : PortWord) (tr : List Transaction) :
    step ⟨a, [], tr⟩ = .next ⟨a, [], tr ++ [⟨a, respond a⟩]⟩ :=
  step_eq_record _

/-- A run of two requests records the port's answer to each, after whatever the record held. -/
theorem run_two_requests (a b : PortWord) (tr : List Transaction) :
    Host.Core.run core 2 (⟨a, [b], tr⟩ : State) =
      .next (⟨b, [], tr ++ [⟨a, respond a⟩, ⟨b, respond b⟩]⟩ : State) := by
  rw [run_succ_of_next (step_of_queued a b [] tr), run_succ_of_next (step_of_none_queued b _), run_zero,
    List.append_assoc, List.singleton_append]

/-! ### The statements of the memory family -/

/-- Settles O16: in either order each request gets the port's answer to it. -/
theorem transactionsCommute : Obligations.TransactionsCommute := by
  intro a b tr tr'
  exact ⟨respond a, respond b, _, _, run_two_requests a b tr, rfl, run_two_requests b a tr', rfl⟩

/-- Settles O17: with nothing queued the first step leaves the request on the port, and the second answers it again. -/
theorem repeatedRequestRepeatsResponse : Obligations.RepeatedRequestRepeatsResponse := by
  rintro ⟨req, pending, tr⟩ rfl
  exact ⟨_, _, respond req, step_of_none_queued req tr, step_of_none_queued req _, rfl, List.append_assoc _ _ _⟩

end Sys2Proof.Machine
end

section
/-! PROOFS: the encoding family (30_encoding.md), part 1: the request word. Which words decode is said once, by the op number
and the format of the operation it selects (`decode_ok_iff`, `decode_error_iff_refused`); R74's malformations and R75's table
of match and mask are held against it. -/

namespace Sys2Proof

/-! ### Which request words decode (R73 steps 1 to 4) -/

/-- One of R73's steps 2 to 4 refuses the fields `q` of a request of operation `m`. -/
def Request.Refused (m : Mnemonic) (q : Request) : Prop :=
  q.mbz ≠ 0 ∨ (q.strict = true ∧ m.format.hasStrict = false) ∨ m.format.operandBad q.opnd = true

/-- An op number below 8 is that of an operation (R66). -/
theorem Mnemonic.exists_code {op : BitVec 4} (h : ¬ 8 ≤ op.toNat) : ∃ m : Mnemonic, op = m.code := by
  obtain ⟨m, hm⟩ := Option.ne_none_iff_exists'.1 (mt (Mnemonic.ofCode_eq_none op).1 h)
  exact ⟨m, (Mnemonic.code_of_ofCode hm).symm⟩

/-- A request with the op number of `m` is refused by the decoder exactly when R73's steps 2 to 4 refuse it. -/
theorem decode_error_iff_refused {r : PortWord} {m : Mnemonic} (hop : r.extractLsb' 36 4 = m.code) :
    (∃ e, decode r = .error e) ↔ (Request.ofWord r).Refused m := by
  have hof : Mnemonic.ofCode (Request.ofWord r).op = some m := by rw [Request.ofWord_op, hop, Mnemonic.ofCode_code]
  constructor
  · rintro ⟨e, he⟩
    obtain hres | ⟨m', hof', hbad⟩ := decodeRequest_error he <;> rw [hof] at *
    · cases hres
    · cases hof'
      exact hbad
  · intro hbad
    cases hd : decode r with
    | error e => exact ⟨e, rfl⟩
    | ok i =>
      obtain ⟨m', hof', hmbz, hstrict, hopnd, -⟩ := decodeRequest_ok hd
      cases hof.symm.trans hof'
      obtain hbad | ⟨hs, hno⟩ | hbad := hbad
      · exact absurd hmbz hbad
      · exact absurd (hno.symm.trans (hstrict hs)) Bool.false_ne_true
      · exact absurd (hopnd.symm.trans hbad) Bool.false_ne_true

/-- A request decodes to the operation `m` exactly when it has the op number of `m` and R73's steps 2 to 4 let it pass. -/
theorem decode_ok_iff (r : PortWord) (m : Mnemonic) :
    (∃ i, decode r = .ok i ∧ i.mnemonic = m) ↔ r.extractLsb' 36 4 = m.code ∧ ¬ (Request.ofWord r).Refused m := by
  constructor
  · rintro ⟨i, hd, rfl⟩
    have hop : r.extractLsb' 36 4 = i.mnemonic.code := by
      rw [← encode_of_decode_ok hd]
      exact congrArg Request.op (Request.ofWord_toWord i.request)
    refine ⟨hop, fun hbad => ?_⟩
    obtain ⟨e, he⟩ := (decode_error_iff_refused hop).2 hbad
    cases hd.symm.trans he
  · rintro ⟨hop, hgood⟩
    cases hd : decode r with
    | error e => exact absurd ((decode_error_iff_refused hop).1 ⟨e, hd⟩) hgood
    | ok i =>
      obtain ⟨m', hof, -, -, -, rfl⟩ := decodeRequest_ok hd
      rw [Request.ofWord_op, hop, Mnemonic.ofCode_code] at hof
      cases hof
      exact ⟨_, rfl, by cases m <;> rfl⟩

/-! ### Match and mask (R75) -/

/-- The operand bits that must be zero in a format (R67). -/
def Format.operandMask : Format → U32
  | .FC | .P => 0xFF000000
  | .W => 0xFC000000
  | .V => 0

/-- The fields of an operation's mask in R75's table: the bits that its pattern fixes. -/
def Mnemonic.maskFields (m : Mnemonic) : Request := ⟨15, 7, !m.format.hasStrict, m.format.operandMask⟩

/-- The fields of an operation's pattern in R75's table: its op number, and zero elsewhere. -/
def Mnemonic.patternFields (m : Mnemonic) : Request := ⟨m.code, 0, false, 0⟩

/-- The row of R75's table that the fields of a request word call for. -/
def Mnemonic.row (m : Mnemonic) : OpcodeRow := ⟨m, m.patternFields.toWord, m.maskFields.toWord⟩

/-- R75's table has the row that the fields call for, for each of the operations and no more. -/
theorem mem_opcodeRows {row : OpcodeRow} : row ∈ opcodeRows ↔ ∃ m : Mnemonic, row = m.row := by
  have htable : opcodeRows = [Mnemonic.ENC, .DEC, .PGEN, .PCHK, .POPC, .WCHK, .FCHK, .CCHK].map Mnemonic.row := by decide
  rw [htable, List.mem_map]
  constructor
  · rintro ⟨m, -, rfl⟩
    exact ⟨m, rfl⟩
  · rintro ⟨m, rfl⟩
    exact ⟨m, by cases m <;> simp, rfl⟩

/-- Masking a request word is masking each of its fields. -/
theorem and_toWord_eq_iff (r : PortWord) (mask pattern : Request) :
    r &&& mask.toWord = pattern.toWord ↔
      r.extractLsb' 36 4 &&& mask.op = pattern.op ∧ r.extractLsb' 33 3 &&& mask.mbz = pattern.mbz ∧
      (r.getLsbD 32 && mask.strict) = pattern.strict ∧ r.extractLsb' 0 32 &&& mask.opnd = pattern.opnd := by
  have hmask := Request.ofWord_toWord mask
  have hfields : Request.ofWord (r &&& mask.toWord) = ⟨r.extractLsb' 36 4 &&& mask.op,
      r.extractLsb' 33 3 &&& mask.mbz, r.getLsbD 32 && mask.strict, r.extractLsb' 0 32 &&& mask.opnd⟩ := by
    conv_rhs => rw [← hmask]
    simp only [Request.ofWord, BitVec.extractLsb'_and, BitVec.getLsbD_and]
  have hinj : r &&& mask.toWord = pattern.toWord ↔ Request.ofWord (r &&& mask.toWord) = pattern :=
    ⟨fun h => by rw [h, Request.ofWord_toWord], fun h => by rw [← h, Request.toWord_ofWord]⟩
  rw [hinj, hfields]
  exact (Request.mk.injEq ..).to_iff

/-- The mask of the bits from index `k` on picks out exactly those bits. -/
theorem and_highMask_eq_zero {w k n : Nat} (hkn : k + n = w) (v : BitVec w) :
    v &&& BitVec.allOnes w <<< k = 0 ↔ v.extractLsb' k n = 0 := by
  have hbit (j : Nat) : (v &&& BitVec.allOnes w <<< k).getLsbD j = (decide (k ≤ j) && v.getLsbD j) := by
    by_cases hj : j < w
    · by_cases hjk : k ≤ j
      · simp [hj, hjk, Nat.not_lt.2 hjk]
      · simp [hjk, Nat.lt_of_not_le hjk]
    · simp [BitVec.getLsbD_of_ge v j (by omega)]
  constructor <;> intro h <;> refine BitVec.eq_of_getLsbD_eq fun j hj => ?_
  · have hk := congrArg (·.getLsbD (k + j)) h
    simpa [hbit, hj, -BitVec.getLsbD_and] using hk
  · by_cases hjk : k ≤ j
    · have hk := congrArg (·.getLsbD (j - k)) h
      simpa [hbit, hjk, show j - k < n by omega, show k + (j - k) = j by omega, -BitVec.getLsbD_and] using hk
    · simp [hbit, hjk, -BitVec.getLsbD_and]

/-- The operand part of a row's mask is R67's must-be-zero test. -/
theorem Format.and_operandMask (f : Format) (v : U32) : v &&& f.operandMask = 0 ↔ f.operandBad v = false := by
  cases f with
  | FC | P =>
    simp only [Format.operandBad, decide_eq_false_iff_not, not_not]
    exact and_highMask_eq_zero (k := 24) (n := 8) rfl v
  | W =>
    simp only [Format.operandBad, decide_eq_false_iff_not, not_not]
    exact and_highMask_eq_zero (k := 26) (n := 6) rfl v
  | V => simp [Format.operandMask, Format.operandBad]

/-- A request word selects an operation's row exactly when it decodes to that operation. -/
theorem selects_row_iff (r : PortWord) (m : Mnemonic) :
    r &&& m.row.mask = m.row.pattern ↔ ∃ i, decode r = .ok i ∧ i.mnemonic = m := by
  have hones4 (v : BitVec 4) : v &&& 15 = v := BitVec.and_allOnes
  have hones3 (v : BitVec 3) : v &&& 7 = v := BitVec.and_allOnes
  rw [decode_ok_iff, Mnemonic.row, and_toWord_eq_iff]
  simp only [Mnemonic.maskFields, Mnemonic.patternFields, hones4, hones3, Format.and_operandMask, Request.Refused,
    Request.ofWord_mbz, Request.ofWord_strict, Request.ofWord_opnd]
  simp

end Sys2Proof

namespace Sys2Proof.Machine

/-! ### Malformed requests (R74) -/

/-- The op number read off the request word is the field of it. -/
theorem opOf_eq (r : PortWord) : opOf r = (r.extractLsb' 36 4).toNat := by
  have h := r.isLt
  simp only [opOf, BitVec.extractLsb'_toNat, Nat.shiftRight_eq_div_pow]
  omega

/-- A slice of the operand field is that slice of the request word. -/
theorem extractLsb'_opnd (r : PortWord) {k n : Nat} (h : k + n ≤ 32) :
    (r.extractLsb' 0 32).extractLsb' k n = r.extractLsb' k n := by
  ext j hj
  simp [show k + j < 32 by omega]

/-- R74's malformations of a request whose op number is that of `m` are the refusals of R73's steps 2 to 4. -/
theorem malformed_iff_refused {r : PortWord} {m : Mnemonic} (h : r.extractLsb' 36 4 = m.code) :
    Malformed r ↔ (Request.ofWord r).Refused m := by
  have hhigh8 : (r.extractLsb' 0 32).extractLsb' 24 8 = r.extractLsb' 24 8 := extractLsb'_opnd r (by omega)
  have hhigh6 : (r.extractLsb' 0 32).extractLsb' 26 6 = r.extractLsb' 26 6 := extractLsb'_opnd r (by omega)
  have hop : opOf r = m.code.toNat := by rw [opOf_eq, h]
  simp only [Malformed, Request.Refused, hop, Request.ofWord_mbz, Request.ofWord_strict, Request.ofWord_opnd]
  cases m <;> simp [Mnemonic.code, Mnemonic.format, Format.hasStrict, Format.operandBad, hhigh8, hhigh6]

/-- Exactly the malformed requests are refused by the decoder. -/
theorem malformed_iff_decode_error (r : PortWord) : Malformed r ↔ ∃ e, decode r = .error e := by
  by_cases hres : 8 ≤ (r.extractLsb' 36 4).toNat
  · have hnone : Mnemonic.ofCode (Request.ofWord r).op = none := (Mnemonic.ofCode_eq_none _).2 hres
    exact iff_of_true (.inl (by rwa [opOf_eq])) ⟨.reservedOp, by simp only [decode, decodeRequest, hnone]⟩
  · obtain ⟨m, hop⟩ := Mnemonic.exists_code hres
    exact (malformed_iff_refused hop).trans (decode_error_iff_refused hop).symm

/-- A step at a request the decoder refuses answers IllegalRequest. -/
theorem answersIllegal_of_decode_error {s : State} {e : Malformation} (h : decode s.req = .error e) :
    AnswersIllegal s := by
  rw [AnswersIllegal, step_eq_record, answer_of_decode_error h, State.record, raise_pack_illegalRequest]
  rfl

/-! ### The statements about request words -/

/-- Settles O6, by the inverse laws of the decoder and the encoder. -/
theorem decodeEncodeRoundTrip : Obligations.DecodeEncodeRoundTrip :=
  ⟨decode_encode, fun _ _ => encode_of_decode_ok⟩

/-- Settles O7: a row's mask and pattern say field by field what the decoder asks of that operation. -/
theorem matchMaskSelectsOperation : Obligations.MatchMaskSelectsOperation := by
  constructor
  · intro r row hrow
    obtain ⟨m, rfl⟩ := mem_opcodeRows.1 hrow
    exact selects_row_iff r m
  · intro s hnone
    cases hd : decode s.req with
    | error e => exact answersIllegal_of_decode_error hd
    | ok i =>
      exact absurd ((selects_row_iff s.req i.mnemonic).2 ⟨i, hd, rfl⟩) (hnone _ (mem_opcodeRows.2 ⟨_, rfl⟩))

/-- Settles O8: the malformations are what the decoder refuses, and a refused request is answered IllegalRequest. -/
theorem malformedRequestsAnswerIllegal : Obligations.MalformedRequestsAnswerIllegal := by
  refine ⟨malformed_iff_decode_error, fun s hbad => ?_⟩
  obtain ⟨e, he⟩ := (malformed_iff_decode_error s.req).1 hbad
  exact answersIllegal_of_decode_error he

/-- Settles O9, by the equation that says what a step records. -/
theorem stepAnswersAsPort : Obligations.StepAnswersAsPort :=
  step_eq_record

/-- Settles O3, by evaluating the decoder on each written word. -/
theorem writtenWordsDecode : Obligations.WrittenWordsDecode := by
  unfold Obligations.WrittenWordsDecode
  decide

/-- Settles O4: the operation records its transaction, and the host then presents its next request, if it has one. -/
theorem stepRunsDecodedOperation : Obligations.StepRunsDecodedOperation := by
  intro s i hd
  have hexec := exec_eq_record i s
  have hstep : step s = .next (s.record (encode i) (opResponse i)).presentNext := by
    rw [step_of_decode_ok s hd, hexec, thenPresentNext_next]
  refine ⟨_, hexec, fun hnil => ?_, fun q qs hcons => ?_⟩
  · rw [hstep, State.presentNext_nil (s.record _ _) hnil]
  · rw [hstep, State.presentNext_cons (s.record _ _) hcons]

end Sys2Proof.Machine
end

section
/-! PROOFS: the encoding family (30_encoding.md), part 2: the response word. Every response is a success or one of the five
errors of the hardware (`answer_cases`); the shape of a response and the record's legality follow (R69, R70). -/

namespace Sys2Proof.Machine

/-! ### How an operation can end (R70) -/

/-- The five errors the hardware can raise (R70). -/
def hardwareFailures : List Failure :=
  [.outOfRangeWord, .outOfRangeFacility, .outOfRangeCard, .parityCheckFailed, .illegalRequest]

/-- A bound check raises the error it was given, and no other. -/
theorem checkBound_error {bound v : U32} {e e' : Failure} (h : checkBound bound e v = .error e') : e' = e := by
  by_cases hv : v.toNat ≤ bound.toNat
  · rw [checkBound_of_le e hv] at h
    cases h
  · rw [checkBound_of_lt e (by omega)] at h
    cases h
    rfl

/-- Strict DEC of a word of wrong parity raises (R89). -/
theorem opDec_of_strict_mismatch {strict : Bool} {w : Word26} (h : strict = true ∧ (codecDecode w).parityOk = 0) :
    opDec strict w = .error .parityCheckFailed :=
  if_pos h

/-- Otherwise DEC answers the parity flag and the two fields (R71, R89). -/
theorem opDec_of_not_strict_mismatch {strict : Bool} {w : Word26}
    (h : ¬ (strict = true ∧ (codecDecode w).parityOk = 0)) :
    opDec strict w = .ok ((codecDecode w).parityOk.setWidth 32 <<< 24 ||| (codecDecode w).facility.setWidth 32 <<< 16
      ||| (codecDecode w).card.setWidth 32) :=
  if_neg h

/-- DEC raises ParityCheckFailed only (R89). -/
theorem opDec_error {strict : Bool} {w : Word26} {e : Failure} (h : opDec strict w = .error e) :
    e = .parityCheckFailed := by
  by_cases hbad : strict = true ∧ (codecDecode w).parityOk = 0
  · rw [opDec_of_strict_mismatch hbad] at h
    cases h
    rfl
  · rw [opDec_of_not_strict_mismatch hbad] at h
    cases h

/-- PCHK raises ParityCheckFailed only (R107). -/
theorem opPchk_error {strict : Bool} {w : Word26} {e : Failure} (h : opPchk strict w = .error e) :
    e = .parityCheckFailed := by
  simp only [opPchk] at h
  split at h
  · cases h
    rfl
  · cases h

/-- A response the hardware can give: a success, or one of its five errors. -/
def HardwareResponse (r : Response) : Prop :=
  (∃ v : U32, r = .ok v) ∨ ∃ e ∈ hardwareFailures, r = .raise e

/-- An operation that raises hardware errors only gives a hardware response. -/
theorem hardwareResponse_ofResult {n : Nat} {result : Except Failure (BitVec n)}
    (h : ∀ e, result = .error e → e ∈ hardwareFailures) : HardwareResponse (.ofResult result) := by
  cases result with
  | ok v => exact .inl ⟨v.setWidth 32, by simp [Response.ok]⟩
  | error e => exact .inr ⟨e, h e rfl, rfl⟩

/-- Every operation ends with a hardware response. -/
theorem hardwareResponse_opResponse (i : Instr) : HardwareResponse (opResponse i) := by
  cases i with
  | enc f c => exact hardwareResponse_ofResult (result := opEnc f c) nofun
  | pgen p => exact hardwareResponse_ofResult (result := opPgen p) nofun
  | popc v => exact hardwareResponse_ofResult (result := opPopc v) nofun
  | dec strict w =>
    exact hardwareResponse_ofResult (result := opDec strict w) fun e he => by simp [opDec_error he, hardwareFailures]
  | pchk strict w =>
    exact hardwareResponse_ofResult (result := opPchk strict w) fun e he => by simp [opPchk_error he, hardwareFailures]
  | wchk v =>
    exact hardwareResponse_ofResult (result := opWchk v) fun e he => by simp [checkBound_error he, hardwareFailures]
  | fchk v =>
    exact hardwareResponse_ofResult (result := opFchk v) fun e he => by simp [checkBound_error he, hardwareFailures]
  | cchk v =>
    exact hardwareResponse_ofResult (result := opCchk v) fun e he => by simp [checkBound_error he, hardwareFailures]

/-- Every request word is answered with a hardware response. -/
theorem hardwareResponse_answer (r : PortWord) : HardwareResponse (answer r) := by
  cases hd : decode r with
  | ok i => exact answer_of_decode_ok hd ▸ hardwareResponse_opResponse i
  | error e => exact .inr ⟨.illegalRequest, by simp [hardwareFailures], answer_of_decode_error hd⟩

/-! ### The response words (R68 to R70) -/

/-- Every response word is a success with field 0 or one of the five error words. -/
theorem legalResponse_respond (r : PortWord) : LegalResponse (respond r) := by
  rw [respond]
  obtain ⟨v, h⟩ | ⟨e, he, h⟩ := hardwareResponse_answer r <;> rw [h]
  · exact .inl ⟨rspStatus_pack _, rspField_pack _⟩
  · right
    simp only [hardwareFailures, List.mem_cons, List.not_mem_nil, or_false] at he
    obtain rfl | rfl | rfl | rfl | rfl := he <;> simp

/-- A legal record stays legal when a legal response is added. -/
theorem TraceLegal.append {s t : State} {x : Transaction} (hs : TraceLegal s) (hx : LegalResponse x.rsp)
    (ht : t.trace = s.trace ++ [x]) : TraceLegal t := by
  intro y hy
  rw [ht, List.mem_append, List.mem_singleton] at hy
  obtain hold | rfl := hy
  · exact hs y hold
  · exact hx

/-! ### The statements about response words -/

/-- Settles O12: the one transaction a step adds carries the port's answer, which is legal. -/
theorem stepKeepsTraceLegal : Obligations.StepKeepsTraceLegal :=
  fun s _ hs h => hs.append (x := ⟨s.req, s.rsp⟩) (legalResponse_respond s.req) (step_trace_eq h)

/-- Settles O13: no other error word is legal, and a request that brings about each is written out. -/
theorem errorResponsesAreTheFive : Obligations.ErrorResponsesAreTheFive := by
  intro w hw
  constructor
  · rintro ⟨r, rfl⟩
    obtain ⟨hok, -⟩ | herror := legalResponse_respond r
    · exact absurd hok hw
    · exact herror
  · rintro (rfl | rfl | rfl | rfl | rfl)
    · exact ⟨0x5004000000, by decide⟩
    · exact ⟨0x6000000100, by decide⟩
    · exact ⟨0x7000010000, by decide⟩
    · exact ⟨0x1100000000, by decide⟩
    · exact ⟨0x8000000000, by decide⟩

/-- Settles O14: read off the legal responses, each of the five error words by evaluation. -/
theorem errorResponseShape : Obligations.ErrorResponseShape := by
  intro r
  obtain ⟨hstatus, hfield⟩ | herror := legalResponse_respond r
  · exact ⟨fun h => absurd hstatus h, fun _ => hfield⟩
  · obtain h | h | h | h | h := herror <;> rw [h] <;> decide

end Sys2Proof.Machine
end

section
/-! PROOFS: the encoding family (30_encoding.md), part 3: ENC against PGEN, on the payload that both take (R71, R106). -/

namespace Sys2Proof

/-- A request word whose must-be-zero field is zero is the or of its three other fields, each at its bits (R63). -/
theorem Request.toWord_of_mbz_zero (op : BitVec 4) (strict : Bool) (opnd : U32) :
    Request.toWord ⟨op, 0, strict, opnd⟩ =
      op.setWidth 40 <<< 36 ||| (BitVec.ofBool strict).setWidth 40 <<< 32 ||| opnd.setWidth 40 := by
  simp [Request.toWord]

/-- Widening through the 32 bits of the operand or result field is widening at once. -/
theorem setWidth_setWidth_portWord {n : Nat} (h : n ≤ 32) (v : BitVec n) :
    (v.setWidth 32).setWidth 40 = v.setWidth 40 :=
  BitVec.setWidth_setWidth (by omega)

/-- The operand field of ENC with a payload's facility and card is that payload. -/
theorem enc_opnd_of_payload (p : Payload24) :
    (Instr.enc (p.extractLsb' 16 8) (p.extractLsb' 0 16)).opnd = p.setWidth 32 := by
  have h := facility_or_card_eq_setWidth (p.setWidth 32)
  rwa [BitVec.extractLsb'_setWidth_of_le (by omega), BitVec.extractLsb'_setWidth_of_le (by omega),
    extractLsb'_setWidth_self (by omega)] at h

/-- The request word of ENC with a payload's facility and card is that payload (R71). -/
theorem encode_enc_of_payload (p : Payload24) :
    encode (.enc (p.extractLsb' 16 8) (p.extractLsb' 0 16)) = p.setWidth 40 := by
  rw [encode, Instr.request, enc_opnd_of_payload, Request.toWord_of_mbz_zero, setWidth_setWidth_portWord (by omega)]
  simp [Instr.mnemonic, Mnemonic.code, Instr.strictBit]

/-- The request word of PGEN. -/
theorem encode_pgen (p : Payload24) : encode (.pgen p) = 0x2000000000 ||| p.setWidth 40 := by
  rw [encode, Instr.request, Request.toWord_of_mbz_zero, Instr.opnd, setWidth_setWidth_portWord (by omega)]
  simp [Instr.mnemonic, Mnemonic.code, Instr.strictBit]

end Sys2Proof

namespace Sys2Proof.Machine

/-- A payload is made of its facility and its card. -/
theorem mkpayload_slices (p : Payload24) : mkpayload (p.extractLsb' 16 8) (p.extractLsb' 0 16) = p := by
  refine BitVec.eq_of_getLsbD_eq fun i hi => ?_
  rw [getLsbD_mkpayload]
  by_cases h : i < 16
  · simp [h]
  · simp [h, show i - 16 < 8 by omega, show 16 + (i - 16) = i by omega]

/-- The two parity bits of a word without a payload: P1 at bit 25, P2 at bit 0 (R106). -/
def parityBits (a b : ParityBit) : Word26 := a.setWidth 26 <<< 25 ||| b.setWidth 26

/-- A word is its two parity bits and its payload between them. -/
theorem assemble_eq_parityBits_or (a : ParityBit) (p : Payload24) (b : ParityBit) :
    assemble a p b = parityBits a b ||| p.setWidth 26 <<< 1 := by
  rw [assemble, parityBits, BitVec.or_assoc, BitVec.or_assoc, BitVec.or_comm (b.setWidth 26)]

/-- Two parity bits leave positions 24 to 1 empty. -/
theorem extractLsb'_parityBits (a b : ParityBit) : (parityBits a b).extractLsb' 1 24 = 0 := by
  refine BitVec.eq_of_getLsbD_eq fun i hi => ?_
  simp [parityBits, hi, show 1 + i < 25 by omega]

/-- An operation records its request word with the packed word of its response. -/
theorem exec_eq_after (i : Instr) (s : State) : exec i s = .next (s.after (encode i) (opResponse i).pack) :=
  exec_eq_record i s

/-- A success of at most 32 bits answers its result, widened to the port. -/
theorem ok_pack_setWidth {n : Nat} (h : n ≤ 32) (v : BitVec n) : (Response.ok v).pack = v.setWidth 40 := by
  rw [ok_pack, setWidth_setWidth_portWord h]

/-- ENC answers the encoded word (R88). -/
theorem opResponse_enc_pack (f : FacilityCode) (c : CardNumber) :
    (opResponse (.enc f c)).pack = (codecEncode f c).setWidth 40 :=
  ok_pack_setWidth (by omega) (codecEncode f c)

/-- PGEN answers the two expected parity bits of the payload (R106). -/
theorem opResponse_pgen_pack (p : Payload24) :
    (opResponse (.pgen p)).pack = (parityBits (p1Expected p) (p2Expected p)).setWidth 40 :=
  ok_pack_setWidth (by omega) (parityBits (p1Expected p) (p2Expected p))

/-- Encoding a payload puts it between its two expected parity bits. -/
theorem codecEncode_of_payload (p : Payload24) :
    codecEncode (p.extractLsb' 16 8) (p.extractLsb' 0 16) =
      parityBits (p1Expected p) (p2Expected p) ||| p.setWidth 26 <<< 1 := by
  rw [codecEncode, mkpayload_slices, assemble_eq_parityBits_or]

/-- Settles O34: both operations answer the expected parity bits of the payload, and ENC the payload between them. -/
theorem encIsPgenOverPayload : Obligations.EncIsPgenOverPayload := by
  intro p s
  refine ⟨codecEncode (p.extractLsb' 16 8) (p.extractLsb' 0 16), parityBits (p1Expected p) (p2Expected p), ?_, ?_,
    codecEncode_of_payload p, extractLsb'_parityBits _ _⟩
  · rw [exec_eq_after, encode_enc_of_payload, opResponse_enc_pack]
  · rw [exec_eq_after, encode_pgen, opResponse_pgen_pack]

end Sys2Proof.Machine
end

section
/-! PROOFS: the encoding family (30_encoding.md), part 4: expressions and programs (R76, R175). What a program transacts is
said once, line by line (`Transacts`), and each clause about programs is an induction over it. -/

namespace Sys2Proof.Machine

/-! ### The value of an expression (R76) -/

/-- The name of the newest binding reads as its value, and another name as before it (log entry 5). -/
theorem lookup_cons_eq_ite (n m : Name) (v : U32) (env : Bindings) :
    List.lookup n ((m, v) :: env) = if n = m then some v else env.lookup n := by
  by_cases h : n = m
  · simp [h]
  · simp [h, List.lookup_cons, beq_eq_false_iff_ne.2 h]

/-- A name has no value exactly when nothing binds it. -/
theorem lookup_eq_none_iff_unbound (n : Name) (env : Bindings) : env.lookup n = none ↔ n ∉ env.map Prod.fst := by
  induction env with
  | nil => simp
  | cons b env ih =>
    rw [lookup_cons_eq_ite]
    by_cases h : n = b.1 <;> simp [h, ih]

section
variable {env : Bindings} {a b : Expr}

theorem eval_or_eq_none : (Expr.or a b).eval env = none ↔ a.eval env = none ∨ b.eval env = none := by
  rw [Expr.eval]
  cases a.eval env <;> cases b.eval env <;> simp

theorem eval_and_eq_none : (Expr.and a b).eval env = none ↔ a.eval env = none ∨ b.eval env = none := by
  rw [Expr.eval]
  cases a.eval env <;> cases b.eval env <;> simp

theorem eval_xor_eq_none : (Expr.xor a b).eval env = none ↔ a.eval env = none ∨ b.eval env = none := by
  rw [Expr.eval]
  cases a.eval env <;> cases b.eval env <;> simp

end

/-- An expression has no value exactly when it reads a name that nothing binds. -/
theorem eval_eq_none_iff (env : Bindings) (e : Expr) : e.eval env = none ↔ ∃ n ∈ e.names, n ∉ env.map Prod.fst := by
  induction e with
  | lit v => simp [Expr.names]
  | name n => simp only [eval_name, lookup_eq_none_iff_unbound, Expr.names, List.mem_singleton, exists_eq_left]
  | slice n h l =>
    simp only [Expr.eval, Option.map_eq_none_iff, lookup_eq_none_iff_unbound, Expr.names, List.mem_singleton,
      exists_eq_left]
  | shl e k ih => simp only [Expr.eval, Option.map_eq_none_iff, ih, Expr.names]
  | or a b iha ihb => simp only [eval_or_eq_none, iha, ihb, Expr.names, List.mem_append, or_and_right, exists_or]
  | and a b iha ihb => simp only [eval_and_eq_none, iha, ihb, Expr.names, List.mem_append, or_and_right, exists_or]
  | xor a b iha ihb => simp only [eval_xor_eq_none, iha, ihb, Expr.names, List.mem_append, or_and_right, exists_or]

/-- The slice `[h:l]` of a 32-bit value, as a number. -/
theorem slice_toNat (v : U32) {h l : Nat} (hl : l ≤ h) (hh : h ≤ 31) :
    ((v.extractLsb' l (h - l + 1)).setWidth 32).toNat = v.toNat / 2 ^ l % 2 ^ (h - l + 1) := by
  rw [BitVec.toNat_setWidth, BitVec.extractLsb'_toNat, Nat.shiftRight_eq_div_pow]
  refine Nat.mod_eq_of_lt (Nat.lt_of_lt_of_le (Nat.mod_lt _ (Nat.two_pow_pos _)) ?_)
  exact Nat.pow_le_pow_right (by omega) (by omega)

/-- Settles O52, form by form. -/
theorem expressionValues : Obligations.ExpressionValues := by
  refine ⟨fun _ => eval_lit, ?_, ?_, ?_, ?_, eval_eq_none_iff⟩
  · intro env n m v
    exact lookup_cons_eq_ite n m v env
  · intro env n v h l hv hl hh
    exact ⟨_, by rw [Expr.eval, ← eval_name, hv, Option.map_some], slice_toNat v hl hh⟩
  · intro env e x k hx _
    exact ⟨x <<< k, by rw [Expr.eval, hx, Option.map_some], by rw [BitVec.toNat_shiftLeft, Nat.shiftLeft_eq]⟩
  · intro env a b x y hx hy
    refine ⟨x ||| y, x &&& y, x ^^^ y, by simp [Expr.eval, hx, hy], by simp [Expr.eval, hx, hy],
      by simp [Expr.eval, hx, hy], fun i _ => ⟨BitVec.getLsbD_or, BitVec.getLsbD_and, BitVec.getLsbD_xor⟩⟩

/-! ### What a program transacts (R76, R175, R198) -/

/-- The transactions of a program from the bindings `env`: those that bind their line's name, then the failing one if there
is one, and how the program ends. -/
inductive Transacts : List Line → Bindings → List Transaction → List Transaction → ProgramEnd → Prop
  | finished (env : Bindings) : Transacts [] env [] [] .finished
  | unbound {l : Line} {env : Bindings} (ls : List Line) (h : l.request env = none) :
      Transacts (l :: ls) env [] [] .unbound
  | fail {l : Line} {env : Bindings} {r : PortWord} (ls : List Line) (h : l.request env = some r)
      (hr : rspStatus (respond r) ≠ 0) :
      Transacts (l :: ls) env [] [⟨r, respond r⟩] (.failed (rspStatus (respond r)) (rspField (respond r)))
  | bind {l : Line} {env : Bindings} {r : PortWord} {ls : List Line} {good last : List Transaction} {e : ProgramEnd}
      (h : l.request env = some r) (hr : rspStatus (respond r) = 0)
      (rest : Transacts ls ((l.name, rspResult (respond r)) :: env) good last e) :
      Transacts (l :: ls) env (⟨r, respond r⟩ :: good) last e

/-- Issuing a request adds it to the record with the port's answer. -/
theorem issue_trace (r : PortWord) (s : State) : (issue r s).trace = s.trace ++ [⟨r, respond r⟩] :=
  step_trace_eq (step_issue r s)

/-- A run makes the transactions of its program: it records them, binds the results of the good ones, and ends as they
end. -/
theorem runLines_transacts (ls : List Line) (env : Bindings) (s : State) :
    ∃ good last, Transacts ls env good last (runLines ls env s).ended ∧
      (runLines ls env s).state.trace = s.trace ++ good ++ last ∧
      (runLines ls env s).bindings = boundBy ls good env := by
  induction ls generalizing env s with
  | nil => exact ⟨[], [], .finished env, by simp, by simp⟩
  | cons l ls ih =>
    cases h : l.request env with
    | none =>
      rw [runLines_unbound h]
      exact ⟨[], [], .unbound ls h, by simp, by simp⟩
    | some r =>
      by_cases hr : rspStatus (respond r) = 0
      · rw [runLines_bind h hr]
        obtain ⟨good, last, ht, htrace, hbind⟩ := ih ((l.name, rspResult (respond r)) :: env) (issue r s)
        exact ⟨⟨r, respond r⟩ :: good, last, .bind h hr ht, by simp [htrace, issue_trace], by simp [hbind]⟩
      · rw [runLines_fail h hr]
        exact ⟨[], [⟨r, respond r⟩], .fail ls h hr, by simp [issue_trace], by simp⟩

section
variable {ls : List Line} {env : Bindings} {good last : List Transaction} {e : ProgramEnd}

/-- The binding transactions are the ones of status 0. -/
theorem Transacts.good_status (h : Transacts ls env good last e) : ∀ t ∈ good, rspStatus t.rsp = 0 := by
  induction h with
  | finished | unbound | fail => simp
  | bind _ hr _ ih => exact List.forall_mem_cons.2 ⟨hr, ih⟩

/-- Every transaction is answered by the port's function. -/
theorem Transacts.answered (h : Transacts ls env good last e) : ∀ t ∈ good ++ last, t.rsp = respond t.req := by
  induction h with
  | finished | unbound | fail => simp
  | bind _ _ _ ih => exact List.forall_mem_cons.2 ⟨rfl, ih⟩

/-- The `k`-th request is the `k`-th line's, under the bindings so far. -/
theorem Transacts.request (h : Transacts ls env good last e) {k : Nat} {l : Line} {t : Transaction}
    (hl : ls[k]? = some l) (ht : (good ++ last)[k]? = some t) :
    l.request (boundBy ls (good.take k) env) = some t.req := by
  induction h generalizing k with
  | finished => cases hl
  | unbound => cases ht
  | fail ls h hr =>
    cases k with
    | zero => cases hl; cases ht; simpa using h
    | succ k => cases ht
  | bind h hr _ ih =>
    cases k with
    | zero => cases hl; cases ht; simpa using h
    | succ k => simpa using ih hl ht

/-- A program that finishes has answered each of its lines with status 0. -/
theorem Transacts.of_finished (h : Transacts ls env good last .finished) : last = [] ∧ good.length = ls.length := by
  generalize he : ProgramEnd.finished = e at h
  induction h with
  | finished => exact ⟨rfl, rfl⟩
  | unbound | fail => cases he
  | bind _ _ _ ih => simpa using ih he

/-- A program that fails does so at its last transaction, whose status and field are the outcome. -/
theorem Transacts.of_failed {st f : BitVec 4} (h : Transacts ls env good last (.failed st f)) :
    ∃ t, last = [t] ∧ good.length < ls.length ∧ st ≠ 0 ∧ rspStatus t.rsp = st ∧ rspField t.rsp = f := by
  generalize he : ProgramEnd.failed st f = e at h
  induction h with
  | finished | unbound => cases he
  | fail ls h hr =>
    cases he
    exact ⟨_, rfl, by simp, hr, rfl, rfl⟩
  | bind _ _ _ ih => simpa using ih he

/-- A program that ends as unbound does so at a line whose operand has no value. -/
theorem Transacts.of_unbound (h : Transacts ls env good last .unbound) :
    last = [] ∧ ∃ l, ls[good.length]? = some l ∧ l.expr.eval (boundBy ls good env) = none := by
  generalize he : ProgramEnd.unbound = e at h
  induction h with
  | finished | fail => cases he
  | unbound ls h => exact ⟨rfl, _, rfl, by simpa using request_eq_none.1 h⟩
  | bind _ _ _ ih => simpa using ih he

end

/-- Settles O37: the clauses are those of the program's transactions. -/
theorem programStopsAtFirstError : Obligations.ProgramStopsAtFirstError := by
  intro ls env s
  obtain ⟨good, last, ht, htrace, hbind⟩ := runLines_transacts ls env s
  refine ⟨good, last, htrace, ht.good_status, ht.answered, ?_, hbind, ?_⟩
  · intro k l t hl hk
    obtain ⟨v, hv, hreq⟩ := request_eq_some.1 (ht.request hl hk)
    exact ⟨v, hv, by rw [← hreq, Request.toWord_of_mbz_zero]⟩
  · cases he : (runLines ls env s).ended <;> rw [he] at ht
    case finished => exact ht.of_finished
    case failed => exact ht.of_failed
    case unbound => exact ht.of_unbound

/-! ### Well-formed programs (R76) -/

/-- A well-formed line has a request under bindings that bind the names before it. -/
theorem request_ne_none_of_wellFormed {l : Line} {env : Bindings} (h : l.wellFormed (env.map Prod.fst) = true) :
    l.request env ≠ none := by
  intro hnone
  obtain ⟨n, hn, hunbound⟩ := (eval_eq_none_iff env l.expr).1 (request_eq_none.1 hnone)
  have hnames : l.expr.names.all ((env.map Prod.fst).contains ·) = true := (Bool.and_eq_true_iff.1 h).2
  exact hunbound (List.contains_iff_mem.1 (List.all_eq_true.1 hnames n hn))

/-- Settles O38, by induction on the lines: each binds its name for the lines after it. -/
theorem wellFormedProgramNeverUnbound : Obligations.WellFormedProgramNeverUnbound := by
  intro ls
  induction ls with
  | nil => exact fun _ _ _ => nofun
  | cons l ls ih =>
    intro env s hwf
    obtain ⟨hl, hls⟩ := Bool.and_eq_true_iff.1 hwf
    obtain ⟨r, h⟩ := Option.ne_none_iff_exists'.1 (request_ne_none_of_wellFormed hl)
    by_cases hr : rspStatus (respond r) = 0
    · rw [runLines_bind h hr]
      exact ih _ _ hls
    · rw [runLines_fail h hr]
      nofun

end Sys2Proof.Machine
end

section
/-! PROOFS: the encoding family (30_encoding.md), part 5: the pseudo-instructions against the host's conversions (R77, R145).
A line whose operand has the value an operation is encoded with runs that operation (`runLines_of_ok`, `runLines_of_error`),
so an expansion is run line by line. -/

namespace Sys2Proof.Machine

/-! ### A line that runs a known operation (R76) -/

/-- The port answers an operation's request word with the operation's response. -/
theorem respond_encode (i : Instr) : respond (encode i) = (opResponse i).pack :=
  congrArg Response.pack (answer_of_decode_ok (decode_encode i))

section
variable {i : Instr} {n : Name} {m : Mnemonic} {strict : Bool} {x : Expr} {env : Bindings} {ls : List Line} {s : State}

/-- A line with an operation's mnemonic, strict bit and operand value has the operation's request word. -/
theorem request_eq_encode (hm : i.mnemonic = m) (hs : i.strictBit = strict) (hx : x.eval env = some i.opnd) :
    Line.request env ⟨n, m, strict, x⟩ = some (encode i) := by
  subst hm hs
  exact request_eq_some.2 ⟨_, hx, rfl⟩

/-- A line whose operation succeeds binds its name to the result, and the program goes on. -/
theorem runLines_of_ok {v : U32} (hr : opResponse i = .ok v) (hm : i.mnemonic = m) (hs : i.strictBit = strict)
    (hx : x.eval env = some i.opnd) :
    runLines (⟨n, m, strict, x⟩ :: ls) env s = runLines ls ((n, v) :: env) (issue (encode i) s) := by
  have hstatus : rspStatus (respond (encode i)) = 0 := by rw [respond_encode, hr, rspStatus_pack]; rfl
  have hresult : rspResult (respond (encode i)) = v := by
    rw [respond_encode, hr, rspResult_pack, Response.ok, BitVec.setWidth_eq]
  rw [runLines_bind (request_eq_encode hm hs hx) hstatus, hresult]

/-- A line whose operation raises an error ends the program with it. -/
theorem runLines_of_error {e : Failure} (hr : opResponse i = .raise e) (he : e.status ≠ .ok) (hm : i.mnemonic = m)
    (hs : i.strictBit = strict) (hx : x.eval env = some i.opnd) :
    (runLines (⟨n, m, strict, x⟩ :: ls) env s).ended = .failed e.status.code e.field.code := by
  have hstatus : rspStatus (respond (encode i)) = e.status.code := by rw [respond_encode, hr, rspStatus_pack]; rfl
  have hfield : rspField (respond (encode i)) = e.field.code := by rw [respond_encode, hr, rspField_pack]; rfl
  rw [runLines_fail (request_eq_encode hm hs hx), hstatus, hfield]
  rw [hstatus]
  exact mt (Status.code_eq_zero _).1 he

end

/-! ### Words and their parts -/

/-- The payload of an assembled word (R85). -/
@[simp] theorem payloadOf_assemble (a : ParityBit) (p : Payload24) (b : ParityBit) : payloadOf (assemble a p b) = p := by
  refine BitVec.eq_of_getLsbD_eq fun i hi => ?_
  rw [getLsbD_payloadOf, getLsbD_assemble, if_neg (by omega), if_pos (by omega)]
  simp [hi]

/-- The parity bit P1 of an assembled word (R85). -/
@[simp] theorem p1Of_assemble (a : ParityBit) (p : Payload24) (b : ParityBit) : p1Of (assemble a p b) = a := by
  refine BitVec.eq_of_getLsbD_eq fun i hi => ?_
  rw [getLsbD_p1Of, getLsbD_assemble, if_neg (by omega), if_neg (by omega)]
  simp [hi]

/-- The parity bit P2 of an assembled word (R85). -/
@[simp] theorem p2Of_assemble (a : ParityBit) (p : Payload24) (b : ParityBit) : p2Of (assemble a p b) = b := by
  refine BitVec.eq_of_getLsbD_eq fun i hi => ?_
  obtain rfl : i = 0 := by omega
  rw [getLsbD_p2Of, getLsbD_assemble, if_pos rfl]
  simp

/-- An encoded word is parity-valid (R86, R104). -/
theorem parityOk_codecEncode (f : FacilityCode) (c : CardNumber) : parityOk (codecEncode f c) = 1 := by
  simp [parityOk, parityCheck, codecEncode]

/-- A one-bit flag is the bit that says whether it is 1. -/
theorem ofBool_decide_eq_one (b : ParityBit) : BitVec.ofBool (decide (b = 1)) = b := by
  revert b
  decide

/-- A value in range is its low slice, widened back. -/
theorem setWidth_setWidth_of_lt {n : Nat} {v : U32} (h : v.toNat < 2 ^ n) : (v.setWidth n).setWidth 32 = v := by
  refine BitVec.eq_of_toNat_eq ?_
  rw [BitVec.toNat_setWidth, BitVec.toNat_setWidth, Nat.mod_eq_of_lt h, Nat.mod_eq_of_lt v.isLt]

/-- DEC's result: the flag, the facility and the card of a word, at bits 24, 23:16 and 15:0 (R71). -/
def decodedFields (w : Word26) : U32 :=
  (codecDecode w).parityOk.setWidth 32 <<< 24 ||| (codecDecode w).facility.setWidth 32 <<< 16
    ||| (codecDecode w).card.setWidth 32

/-! ### The lines of the expansions (R77) -/

section
variable {n : Name} {m : Mnemonic} {strict : Bool} {x : Expr} {env : Bindings} {ls : List Line} {s : State}

/-- A last line that decodes a word binds its name to the decoded fields. -/
theorem runLines_dec_of_not_mismatch {w : Word26} (hx : x.eval env = some (w.setWidth 32))
    (h : ¬ (strict = true ∧ (codecDecode w).parityOk = 0)) :
    (runLines [⟨n, .DEC, strict, x⟩] env s).ended = .finished ∧
      (runLines [⟨n, .DEC, strict, x⟩] env s).bindings = (n, decodedFields w) :: env := by
  have hr : opResponse (.dec strict w) = .ok (decodedFields w) := by
    rw [opResponse, opDec_of_not_strict_mismatch h]
    rfl
  rw [runLines_of_ok (m := .DEC) (strict := strict) hr rfl rfl hx]
  exact ⟨rfl, rfl⟩

/-- A line that decodes a word of wrong parity strictly ends the program with ParityCheckFailed. -/
theorem runLines_dec_of_mismatch {w : Word26} (hx : x.eval env = some (w.setWidth 32))
    (h : strict = true ∧ (codecDecode w).parityOk = 0) :
    (runLines (⟨n, .DEC, strict, x⟩ :: ls) env s).ended =
      .failed Failure.parityCheckFailed.status.code Failure.parityCheckFailed.field.code := by
  have hr : opResponse (.dec strict w) = .raise .parityCheckFailed := by
    rw [opResponse, opDec_of_strict_mismatch h]
    rfl
  exact runLines_of_error hr nofun rfl rfl hx

/-- A line that encodes a facility and a card binds its name to the word and the program goes on. -/
theorem runLines_enc {f : FacilityCode} {c : CardNumber}
    (hx : x.eval env = some (f.setWidth 32 <<< 16 ||| c.setWidth 32)) :
    runLines (⟨n, .ENC, false, x⟩ :: ls) env s =
      runLines ls ((n, (codecEncode f c).setWidth 32) :: env) (issue (encode (.enc f c)) s) :=
  runLines_of_ok (i := .enc f c) (by simp [opResponse, opEnc, Response.ok]) rfl rfl hx

/-- A line that checks an admitted value binds its name to that value and the program goes on. -/
theorem runLines_check_ok {i : Instr} {bound v : U32} {e : Failure} (hi : opResponse i = .ofResult (checkBound bound e v))
    (hv : v.toNat ≤ bound.toNat) (hm : i.mnemonic = m) (hstrict : i.strictBit = false) (hopnd : i.opnd = v) :
    runLines (⟨n, m, false, .lit v⟩ :: ls) env s = runLines ls ((n, v) :: env) (issue (encode i) s) := by
  have hr : opResponse i = .ok v := by rw [hi, checkBound_of_le e hv, Response.ofResult_ok]
  exact runLines_of_ok hr hm hstrict (by rw [eval_lit, hopnd])

/-- A line that checks a value past the bound ends the program with the check's error. -/
theorem runLines_check_error {i : Instr} {bound v : U32} {e : Failure}
    (hi : opResponse i = .ofResult (checkBound bound e v)) (hv : bound.toNat < v.toNat) (he : e.status ≠ .ok)
    (hm : i.mnemonic = m) (hstrict : i.strictBit = false) (hopnd : i.opnd = v) :
    (runLines (⟨n, m, false, .lit v⟩ :: ls) env s).ended = .failed e.status.code e.field.code := by
  have hr : opResponse i = .raise e := by rw [hi, checkBound_of_lt e hv, Response.ofResult_error]
  exact runLines_of_error hr he hm hstrict (by rw [eval_lit, hopnd])

end

/-! ### The host's conversion without raw-hex mode (R144, R145) -/

section
variable {isWs : Char → Bool} {facTrim : Bool} {intParseMax : Option Nat} {input : ConvertInput} {toggles : Toggles}

/-- An input that yields a word is converted from that word. -/
theorem convert_of_word {w : Word26} (h : inputWord isWs facTrim intParseMax input = .ok w) :
    convert isWs facTrim intParseMax input toggles = outputWord input.tag toggles w := by
  rw [convert, h]

/-- An input that yields no word fails with its own error. -/
theorem convert_of_error {e : Failure} (h : inputWord isWs facTrim intParseMax input = .error e) :
    convert isWs facTrim intParseMax input toggles = .error e := by
  rw [convert, h]

end

/-- A word converts to the aggregate of its fields, unless strict validation fails. -/
theorem outputWord_of_not_mismatch {tag : InputTag} {strict : Bool} {w : Word26}
    (h : ¬ (strict = true ∧ (codecDecode w).parityOk = 0)) :
    outputWord tag { strict } w = .ok (.aggregate ⟨renderHex w false, w, (codecDecode w).facility, (codecDecode w).card,
      decide ((codecDecode w).parityOk = 1), tag, none⟩) :=
  if_neg h

/-- Strict validation of a word of wrong parity fails (R147). -/
theorem outputWord_of_mismatch {tag : InputTag} {strict : Bool} {w : Word26}
    (h : strict = true ∧ (codecDecode w).parityOk = 0) : outputWord tag { strict } w = .error .parityCheckFailed :=
  if_pos h

/-! ### The statements about the pseudo-instructions -/

/-- Settles O40: the range check and DEC are run in turn, each with the error that `Convert` has. -/
theorem convdIsConvertFromDecimal : Obligations.ConvdIsConvertFromDecimal := by
  intro isWs facTrim intParseMax strict v r t1 t2 t3 env s hne run
  by_cases hv : v.toNat ≤ 67108863
  · have hparse : inputWord isWs facTrim intParseMax (.fromDecimal v) = .ok (v.setWidth 26) := by
      rw [inputWord, parseWord26FromDecimal, opWchk, checkBound_of_le _ hv]
      rfl
    have hrun : run = runLines [⟨r, .DEC, strict, .name t1⟩] ((t1, v) :: env) (issue (encode (.wchk v)) s) :=
      runLines_check_ok (i := .wchk v) rfl hv rfl rfl rfl
    have hword : (Expr.name t1).eval ((t1, v) :: env) = some ((v.setWidth 26).setWidth 32) := by
      rw [eval_name, lookup_cons_eq_ite, if_pos rfl, setWidth_setWidth_of_lt (by omega)]
    rw [convert_of_word hparse, hrun]
    by_cases hbad : strict = true ∧ (codecDecode (v.setWidth 26)).parityOk = 0
    · rw [outputWord_of_mismatch hbad]
      exact runLines_dec_of_mismatch hword hbad
    · obtain ⟨hended, hbindings⟩ := runLines_dec_of_not_mismatch (n := r) (s := issue (encode (.wchk v)) s) hword hbad
      rw [outputWord_of_not_mismatch hbad, hbindings]
      refine ⟨hended, ?_, ?_⟩
      · rw [lookup_cons_eq_ite, if_neg hne]
        exact hword
      · rw [lookup_cons_eq_ite, if_pos rfl, ofBool_decide_eq_one]
        rfl
  · have hparse : inputWord isWs facTrim intParseMax (.fromDecimal v) = .error .outOfRangeWord := by
      rw [inputWord, parseWord26FromDecimal, opWchk, checkBound_of_lt _ (Nat.not_le.1 hv)]
      rfl
    rw [convert_of_error hparse]
    exact runLines_check_error (i := .wchk v) rfl (Nat.not_le.1 hv) nofun rfl rfl rfl

/-- CONVFC's facility check passes, as its operand is a facility; then its other lines run. -/
theorem runLines_convfc (f : FacilityCode) (cv : U32) (r t1 t2 t3 : Name) (env : Bindings) (s : State) :
    runLines ((Pseudo.convfc r (.lit (f.setWidth 32)) (.lit cv)).expand t1 t2 t3) env s =
      runLines [⟨t2, .CCHK, false, .lit cv⟩, ⟨t3, .ENC, false, .or (.shl (.name t1) 16) (.name t2)⟩,
        ⟨r, .DEC, false, .name t3⟩] ((t1, f.setWidth 32) :: env) (issue (encode (.fchk (f.setWidth 32))) s) :=
  runLines_check_ok (i := .fchk (f.setWidth 32)) rfl
    (Nat.le_of_lt_succ (Laws.WellFormed.opnd_lt (by omega) f)) rfl rfl rfl

/-- With a card in range CONVFC finishes, and binds the encoded word and its decoded fields. -/
theorem runLines_convfc_of_card {f : FacilityCode} {cv : U32} {r t1 t2 t3 : Name} {env : Bindings} {s : State}
    {w : Word26} (hv : cv.toNat ≤ cardMax.toNat) (hne : t1 ≠ t2) (hw : w = codecEncode f (cv.setWidth 16)) :
    let run := runLines ((Pseudo.convfc r (.lit (f.setWidth 32)) (.lit cv)).expand t1 t2 t3) env s
    run.ended = .finished ∧ run.bindings =
      (r, decodedFields w) :: (t3, w.setWidth 32) :: (t2, cv) :: (t1, f.setWidth 32) :: env := by
  have hoperand : (Expr.or (.shl (.name t1) 16) (.name t2)).eval ((t2, cv) :: (t1, f.setWidth 32) :: env) =
      some (f.setWidth 32 <<< 16 ||| (cv.setWidth 16).setWidth 32) := by
    simp [Expr.eval, lookup_cons_eq_ite, hne, setWidth_setWidth_of_lt (n := 16) (Nat.lt_succ_of_le hv)]
  have hword : (Expr.name t3).eval ((t3, w.setWidth 32) :: (t2, cv) :: (t1, f.setWidth 32) :: env) =
      some (w.setWidth 32) := by
    rw [eval_name, lookup_cons_eq_ite, if_pos rfl]
  rw [runLines_convfc, runLines_check_ok (i := .cchk cv) (m := .CCHK) rfl hv rfl rfl rfl, runLines_enc hoperand, ← hw]
  exact runLines_dec_of_not_mismatch hword nofun

/-- Settles O41: both range checks, ENC and DEC are run in turn; only the card's check can fail, as in `Convert`. -/
theorem convfcIsConvertFromFacilityCard : Obligations.ConvfcIsConvertFromFacilityCard := by
  intro isWs facTrim intParseMax text f cv r t1 t2 t3 env s hf hnames run
  have hrt3 : r ≠ t3 := by rintro rfl; simp at hnames
  have ht12 : t1 ≠ t2 := by rintro rfl; simp at hnames
  by_cases hv : cv.toNat ≤ 65535
  · have hinput : inputWord isWs facTrim intParseMax (.fromFacilityCard text cv) =
        .ok (codecEncode f (cv.setWidth 16)) := by
      rw [inputWord, hf, admitCard, opCchk, checkBound_of_le _ hv]
      rfl
    generalize hw : codecEncode f (cv.setWidth 16) = w at hinput
    have hvalid : (codecDecode w).parityOk = 1 := hw ▸ parityOk_codecEncode f (cv.setWidth 16)
    obtain ⟨hended, hbindings⟩ : run.ended = .finished ∧ run.bindings = _ := runLines_convfc_of_card hv ht12 hw.symm
    rw [convert_of_word hinput, outputWord_of_not_mismatch (strict := false) nofun, hbindings]
    refine ⟨hended, ?_, ?_⟩
    · rw [lookup_cons_eq_ite, if_neg hrt3.symm, lookup_cons_eq_ite, if_pos rfl]
    · rw [lookup_cons_eq_ite, if_pos rfl, decodedFields, hvalid]
      rfl
  · have hinput : inputWord isWs facTrim intParseMax (.fromFacilityCard text cv) = .error .outOfRangeCard := by
      rw [inputWord, hf, admitCard, opCchk, checkBound_of_lt _ (Nat.not_le.1 hv)]
      rfl
    have hended : run.ended = _ := congrArg RunResult.ended (runLines_convfc f cv r t1 t2 t3 env s)
    rw [convert_of_error hinput, hended]
    exact runLines_check_error (i := .cchk cv) rfl (Nat.not_le.1 hv) nofun rfl rfl rfl

end Sys2Proof.Machine
end

section
/-! PROOFS: the codec family (40_codec.md), part 1: extraction, assembly and the parity of a word. Extraction is slicing, a
word is known by its three parts (`eq_assemble_iff`), and the machine's parity flag is the parity read off the bits
(`parityOk_eq_one_iff`). -/

namespace Sys2Proof.Machine

/-! ### Extraction is slicing (R82 to R84) -/

theorem payloadOf_eq_slice (w : Word26) : payloadOf w = w.extractLsb' 1 24 :=
  BitVec.eq_of_getLsbD_eq fun i _ => by rw [getLsbD_payloadOf, BitVec.getLsbD_extractLsb']

theorem p1Of_eq_slice (w : Word26) : p1Of w = w.extractLsb' 25 1 :=
  BitVec.eq_of_getLsbD_eq fun i _ => by rw [getLsbD_p1Of, BitVec.getLsbD_extractLsb']

theorem p2Of_eq_slice (w : Word26) : p2Of w = w.extractLsb' 0 1 :=
  BitVec.eq_of_getLsbD_eq fun i _ => by rw [getLsbD_p2Of, BitVec.getLsbD_extractLsb', Nat.zero_add]

theorem facilityOf_eq_slice (p : Payload24) : facilityOf p = p.extractLsb' 16 8 :=
  BitVec.eq_of_getLsbD_eq fun i _ => by rw [getLsbD_facilityOf, BitVec.getLsbD_extractLsb']

theorem cardOf_eq_slice (p : Payload24) : cardOf p = p.extractLsb' 0 16 :=
  BitVec.eq_of_getLsbD_eq fun i _ => by rw [getLsbD_cardOf, BitVec.getLsbD_extractLsb', Nat.zero_add]

/-- The facility stands at `word[24:17]` (R58). -/
theorem facilityOf_payloadOf (w : Word26) : facilityOf (payloadOf w) = w.extractLsb' 17 8 := by
  refine BitVec.eq_of_getLsbD_eq fun i hi => ?_
  rw [getLsbD_facilityOf, getLsbD_payloadOf, BitVec.getLsbD_extractLsb', ← Nat.add_assoc]
  simp [hi, show 16 + i < 24 by omega]

/-- The card stands at `word[16:1]` (R58). -/
theorem cardOf_payloadOf (w : Word26) : cardOf (payloadOf w) = w.extractLsb' 1 16 := by
  refine BitVec.eq_of_getLsbD_eq fun i hi => ?_
  rw [getLsbD_cardOf, getLsbD_payloadOf, BitVec.getLsbD_extractLsb']
  simp [hi, show i < 24 by omega]

/-! ### Assembly inverts extraction (R85) -/

@[simp] theorem facilityOf_mkpayload (f : FacilityCode) (c : CardNumber) : facilityOf (mkpayload f c) = f := by
  refine BitVec.eq_of_getLsbD_eq fun i hi => ?_
  rw [getLsbD_facilityOf, getLsbD_mkpayload]
  simp [hi]

@[simp] theorem cardOf_mkpayload (f : FacilityCode) (c : CardNumber) : cardOf (mkpayload f c) = c := by
  refine BitVec.eq_of_getLsbD_eq fun i hi => ?_
  rw [getLsbD_cardOf, getLsbD_mkpayload]
  simp [hi]

@[simp] theorem mkpayload_facilityOf_cardOf (p : Payload24) : mkpayload (facilityOf p) (cardOf p) = p := by
  rw [facilityOf_eq_slice, cardOf_eq_slice, mkpayload_slices]

theorem assemble_parts (w : Word26) : assemble (p1Of w) (payloadOf w) (p2Of w) = w := by
  refine BitVec.eq_of_getLsbD_eq fun i hi => ?_
  rw [getLsbD_assemble, getLsbD_p1Of, getLsbD_payloadOf, getLsbD_p2Of]
  obtain rfl | ⟨hpos, hlt⟩ | rfl : i = 0 ∨ (0 < i ∧ i < 25) ∨ i = 25 := by omega
  · simp
  · simp [hlt, show i ≠ 0 by omega, show i - 1 < 24 by omega, show 1 + (i - 1) = i by omega]
  · simp

/-- A word is known by its two parity bits and its payload. -/
theorem eq_assemble_iff {w : Word26} {a b : ParityBit} {p : Payload24} :
    w = assemble a p b ↔ payloadOf w = p ∧ p1Of w = a ∧ p2Of w = b := by
  constructor
  · rintro rfl
    simp
  · rintro ⟨rfl, rfl, rfl⟩
    exact (assemble_parts w).symm

/-! ### The parity of a word, read off its bits (R101, R102, R104) -/

theorem p1Of_eq_ofBool (w : Word26) : p1Of w = BitVec.ofBool (w.getLsbD 25) := by
  refine BitVec.eq_of_getLsbD_eq fun i hi => ?_
  obtain rfl : i = 0 := by omega
  rw [getLsbD_p1Of, BitVec.getLsbD_ofBool]
  simp

theorem p2Of_eq_ofBool (w : Word26) : p2Of w = BitVec.ofBool (w.getLsbD 0) := by
  refine BitVec.eq_of_getLsbD_eq fun i hi => ?_
  obtain rfl : i = 0 := by omega
  rw [getLsbD_p2Of, BitVec.getLsbD_ofBool]
  simp

/-- A payload's twelve bits from `first` on stand one place higher in its word. -/
theorem oddOnes_payloadOf (w : Word26) {first : Nat} (h : first + 12 ≤ 24) :
    oddOnes first (payloadOf w).getLsbD = oddOnes (1 + first) w.getLsbD := by
  have hbits : ∀ i < 12, (payloadOf w).getLsbD (first + i) = w.getLsbD (1 + first + i) := fun i hi => by
    rw [getLsbD_payloadOf, Nat.add_assoc]
    simp [show first + i < 24 by omega]
  rw [oddOnes, oddOnes, onesBelow_congr hbits]

/-- Expected P1 of a word's payload is the oddness of `word[24:13]` (R101). -/
theorem p1Expected_payloadOf (w : Word26) : p1Expected (payloadOf w) = BitVec.ofBool (oddOnes 13 w.getLsbD) := by
  rw [p1Expected_eq, oddOnes_payloadOf w (by omega)]

/-- Expected P2 of a word's payload is the evenness of `word[12:1]` (R102). -/
theorem p2Expected_payloadOf (w : Word26) : p2Expected (payloadOf w) = BitVec.ofBool (!oddOnes 1 w.getLsbD) := by
  rw [p2Expected_eq, oddOnes_payloadOf w (by omega)]

/-- The parity flag is 1 exactly when both actual bits equal the expected ones (R104). -/
theorem parityOk_eq_one_iff_expected (w : Word26) :
    parityOk w = 1 ↔ p1Of w = p1Expected (payloadOf w) ∧ p2Of w = p2Expected (payloadOf w) := by
  simp [parityOk, parityCheck]

/-- The machine's parity flag is the parity read off the bits. -/
theorem parityOk_eq_one_iff {w : Word26} : parityOk w = 1 ↔ parityValid w = true := by
  rw [parityOk_eq_one_iff_expected, p1Of_eq_ofBool, p2Of_eq_ofBool, p1Expected_payloadOf, p2Expected_payloadOf,
    BitVec.ofBool_eq_iff_eq, BitVec.ofBool_eq_iff_eq, parityValid, Bool.and_eq_true, beq_iff_eq, beq_iff_eq]

theorem parityOk_eq_ofBool (w : Word26) : parityOk w = BitVec.ofBool (parityValid w) := by
  rw [← ofBool_decide_eq_one (parityOk w), BitVec.ofBool_eq_iff_eq]
  exact Bool.eq_iff_iff.2 (by rw [decide_eq_true_iff, parityOk_eq_one_iff])

theorem parityOk_eq_zero_iff {w : Word26} : parityOk w = 0 ↔ parityValid w = false := by
  rw [parityOk_eq_ofBool, ← BitVec.ofBool_false, BitVec.ofBool_eq_iff_eq]

/-! ### The statements about extraction and assembly -/

/-- Settles O27, each function by the bits it reads. -/
theorem extractionIsSlicing : Obligations.ExtractionIsSlicing :=
  ⟨fun w => ⟨payloadOf_eq_slice w, p1Of_eq_slice w, p2Of_eq_slice w⟩,
    fun p => ⟨facilityOf_eq_slice p, cardOf_eq_slice p⟩⟩

/-- Settles O28: a word is known by its parts and a payload by its fields. -/
theorem assemblyInvertsExtraction : Obligations.AssemblyInvertsExtraction :=
  ⟨assemble_parts, fun _ _ _ => eq_assemble_iff.1 rfl, mkpayload_facilityOf_cardOf,
    fun f c => ⟨facilityOf_mkpayload f c, cardOf_mkpayload f c⟩⟩

end Sys2Proof.Machine
end

section
/-! PROOFS: the codec family (40_codec.md), part 2: ENC and DEC. Their request words and the words they answer are written
out field by field; the encoder's word has both fields and the parity right, so DEC reads them back. -/

namespace Sys2Proof

/-- Widening a field through the 32 bits of the operand or result keeps it at its place. -/
theorem setWidth_shiftLeft_portWord {n k : Nat} (h : n + k ≤ 32) (v : BitVec n) :
    (v.setWidth 32 <<< k).setWidth 40 = v.setWidth 40 <<< k := by
  refine BitVec.eq_of_getLsbD_eq fun i hi => ?_
  by_cases hik : i - k < n
  · simp [hi, show i < 32 by omega]
  · simp [BitVec.getLsbD_of_ge v (i - k) (by omega)]

/-- The request word of ENC is the facility above the card (R67, R71). -/
theorem encode_enc (f : FacilityCode) (c : CardNumber) :
    encode (.enc f c) = f.setWidth 40 <<< 16 ||| c.setWidth 40 := by
  rw [encode, Instr.request, Request.toWord_of_mbz_zero, Instr.opnd, BitVec.setWidth_or,
    setWidth_shiftLeft_portWord (by omega), setWidth_setWidth_portWord (by omega)]
  simp [Instr.mnemonic, Mnemonic.code, Instr.strictBit]

/-- The request word of DEC: op number 1, the strict bit and the word (R63, R67). -/
theorem encode_dec (strict : Bool) (w : Word26) :
    encode (.dec strict w) = 0x1000000000 ||| (BitVec.ofBool strict).setWidth 40 <<< 32 ||| w.setWidth 40 := by
  rw [encode, Instr.request, Request.toWord_of_mbz_zero, Instr.opnd, setWidth_setWidth_portWord (by omega)]
  simp [Instr.mnemonic, Mnemonic.code, Instr.strictBit]

end Sys2Proof

namespace Sys2Proof.Machine

/-! ### ENC's word (R86, R88) -/

theorem payloadOf_codecEncode (f : FacilityCode) (c : CardNumber) : payloadOf (codecEncode f c) = mkpayload f c :=
  payloadOf_assemble _ _ _

theorem parityValid_codecEncode (f : FacilityCode) (c : CardNumber) : parityValid (codecEncode f c) = true :=
  parityOk_eq_one_iff.1 (parityOk_codecEncode f c)

/-- The encoded word carries the facility at `word[24:17]`. -/
theorem codecEncode_facility_slice (f : FacilityCode) (c : CardNumber) : (codecEncode f c).extractLsb' 17 8 = f := by
  rw [← facilityOf_payloadOf, payloadOf_codecEncode, facilityOf_mkpayload]

/-- The encoded word carries the card at `word[16:1]`. -/
theorem codecEncode_card_slice (f : FacilityCode) (c : CardNumber) : (codecEncode f c).extractLsb' 1 16 = c := by
  rw [← cardOf_payloadOf, payloadOf_codecEncode, cardOf_mkpayload]

/-! ### DEC's answer (R71, R89) -/

/-- DEC answers the flag and the two fields of the word, unless it is strict and the parity is wrong. -/
theorem opResponse_dec_pack {strict : Bool} {w : Word26} (h : strict = false ∨ parityValid w = true) :
    (opResponse (.dec strict w)).pack =
      (BitVec.ofBool (parityValid w)).setWidth 40 <<< 24 ||| (w.extractLsb' 17 8).setWidth 40 <<< 16
        ||| (w.extractLsb' 1 16).setWidth 40 := by
  have hgood : ¬ (strict = true ∧ (codecDecode w).parityOk = 0) := by
    rintro ⟨rfl, hbad⟩
    simp [parityOk_eq_zero_iff.1 hbad] at h
  rw [opResponse, opDec_of_not_strict_mismatch hgood, Response.ofResult_ok, ok_pack_setWidth (by omega),
    BitVec.setWidth_or, BitVec.setWidth_or, setWidth_shiftLeft_portWord (by omega),
    setWidth_shiftLeft_portWord (by omega), setWidth_setWidth_portWord (by omega)]
  simp only [codecDecode, parityOk_eq_ofBool, facilityOf_payloadOf, cardOf_payloadOf]

/-- Strict DEC of a word of wrong parity answers ParityCheckFailed, PARITY. -/
theorem opResponse_dec_strict_pack {w : Word26} (h : parityValid w = false) :
    (opResponse (.dec true w)).pack = 0x4400000000#40 := by
  rw [opResponse, opDec_of_strict_mismatch ⟨rfl, parityOk_eq_zero_iff.2 h⟩, Response.ofResult_error,
    raise_pack_parityCheckFailed]

/-! ### The statements about ENC and DEC -/

/-- Settles O19: the encoder's word has both fields and the parity right, and the ill-formed requests are malformed. -/
theorem encAnswersWord : Obligations.EncAnswersWord := by
  constructor
  · intro f c s
    refine ⟨codecEncode f c, ?_, codecEncode_facility_slice f c, codecEncode_card_slice f c,
      parityValid_codecEncode f c⟩
    rw [exec_eq_after, encode_enc, opResponse_enc_pack]
  · intro s hop hbad
    refine malformedRequestsAnswerIllegal.2 s ?_
    obtain hstrict | hopnd := hbad
    · exact .inr (.inr (.inl ⟨hstrict, by omega, by omega⟩))
    · exact .inr (.inr (.inr (.inl ⟨.inl hop, hopnd⟩)))

/-- Settles O20, by DEC's request word and its two answers; the ill-formed requests are malformed. -/
theorem decAnswersFields : Obligations.DecAnswersFields := by
  refine ⟨fun strict w s h => ?_, fun w s h => ?_, fun s hop hopnd => ?_⟩
  · rw [exec_eq_after, encode_dec, opResponse_dec_pack h]
  · rw [exec_eq_after, encode_dec, opResponse_dec_strict_pack h]
    rfl
  · exact malformedRequestsAnswerIllegal.2 s (.inr (.inr (.inr (.inr ⟨.inl hop, hopnd⟩))))

/-- Settles O29: the encoder's word is parity-valid, so DEC answers its fields, strict or not. -/
theorem decodeOfEncodeRoundTrip : Obligations.DecodeOfEncodeRoundTrip := by
  intro f c strict s s'
  have hvalid := parityValid_codecEncode f c
  refine ⟨codecEncode f c, by rw [exec_eq_after, opResponse_enc_pack], ?_⟩
  rw [exec_eq_after, opResponse_dec_pack (.inr hvalid), hvalid, codecEncode_facility_slice, codecEncode_card_slice]
  rfl

end Sys2Proof.Machine
end

section
/-! PROOFS: the codec family (40_codec.md), part 3: the canonical words. A parity-valid word is the one its payload is
encoded as (`parityOk_eq_one_iff_eq_codecEncode`), so encoding counts these words and repairs the others. -/

namespace Sys2Proof.Machine

/-! ### The word a payload is encoded as (R86, R92) -/

/-- Encoding the fields of a payload puts its two expected parity bits around it. -/
theorem codecEncode_fields (p : Payload24) :
    codecEncode (facilityOf p) (cardOf p) = assemble (p1Expected p) p (p2Expected p) := by
  rw [codecEncode, mkpayload_facilityOf_cardOf]

theorem payloadOf_codecEncode_fields (p : Payload24) : payloadOf (codecEncode (facilityOf p) (cardOf p)) = p := by
  rw [payloadOf_codecEncode, mkpayload_facilityOf_cardOf]

/-- A word is parity-valid with the payload `p` exactly when it is the word `p` is encoded as. -/
theorem parityOk_eq_one_iff_eq_codecEncode (p : Payload24) (w : Word26) :
    payloadOf w = p ∧ parityOk w = 1 ↔ w = codecEncode (facilityOf p) (cardOf p) := by
  rw [codecEncode_fields, eq_assemble_iff, parityOk_eq_one_iff_expected]
  exact and_congr_right fun hp => by rw [hp]

/-- The parity-valid words are the encodings of the payloads. -/
theorem parityValid_words_eq_range :
    {w : Word26 | parityOk w = 1} = Set.range fun p : Payload24 => codecEncode (facilityOf p) (cardOf p) := by
  ext w
  constructor
  · exact fun h => ⟨payloadOf w, ((parityOk_eq_one_iff_eq_codecEncode _ w).1 ⟨rfl, h⟩).symm⟩
  · rintro ⟨p, rfl⟩
    exact parityOk_codecEncode _ _

/-- Two payloads have two words. -/
theorem codecEncode_fields_injective :
    Function.Injective fun p : Payload24 => codecEncode (facilityOf p) (cardOf p) :=
  Function.LeftInverse.injective (g := payloadOf) payloadOf_codecEncode_fields

theorem natCard_payload : Nat.card Payload24 = 2 ^ 24 :=
  (Nat.card_congr (FinEnum.equiv (α := Payload24))).trans (Nat.card_fin _)

/-! ### Re-encoding a word of wrong parity -/

/-- Two words with one payload differ in their parity bits only. -/
theorem assemble_xor_assemble (a b a' b' : ParityBit) (p : Payload24) :
    assemble a p b ^^^ assemble a' p b' = assemble (a ^^^ a') 0 (b ^^^ b') := by
  refine BitVec.eq_of_getLsbD_eq fun i _ => ?_
  rw [BitVec.getLsbD_xor, getLsbD_assemble, getLsbD_assemble, getLsbD_assemble]
  split_ifs <;> simp

/-- Two parity bits that are not both zero, alone in a word, make one of three words. -/
theorem assemble_zero_mem_of_ne_zero (a b : ParityBit) (h : ¬ (a = 0 ∧ b = 0)) :
    assemble a 0 b ∈ [1#26, 0x2000000#26, 0x2000001#26] := by
  revert a b
  decide

/-- Re-encoding a word changes the parity bits that are not the expected ones. -/
theorem reencode_xor (w : Word26) :
    codecEncode (codecDecode w).facility (codecDecode w).card ^^^ w =
      assemble (p1Expected (payloadOf w) ^^^ p1Of w) 0 (p2Expected (payloadOf w) ^^^ p2Of w) := by
  have hencode : codecEncode (codecDecode w).facility (codecDecode w).card =
      assemble (p1Expected (payloadOf w)) (payloadOf w) (p2Expected (payloadOf w)) := codecEncode_fields (payloadOf w)
  rw [hencode, ← assemble_xor_assemble _ _ _ _ (payloadOf w), assemble_parts]

/-- Settles O30: the parity-valid words are the encodings of the payloads, and re-encoding replaces the parity bits. -/
theorem canonicalParityValidWords : Obligations.CanonicalParityValidWords := by
  refine ⟨parityOk_eq_one_iff_eq_codecEncode, ?_, fun w hw => ?_, fun w hw => ?_⟩
  · rw [parityValid_words_eq_range, Set.ncard_range_of_injective codecEncode_fields_injective, natCard_payload]
  · exact ((parityOk_eq_one_iff_eq_codecEncode _ w).1 ⟨rfl, hw⟩).symm
  · rw [reencode_xor]
    refine assemble_zero_mem_of_ne_zero _ _ fun ⟨h1, h2⟩ => ?_
    have hvalid : parityOk w = 1 := (parityOk_eq_one_iff_expected w).2
      ⟨(BitVec.xor_eq_zero_iff.1 h1).symm, (BitVec.xor_eq_zero_iff.1 h2).symm⟩
    rw [hvalid] at hw
    cases hw

end Sys2Proof.Machine
end

section
/-! PROOFS: the codec family (40_codec.md), part 4: bit errors. A word is parity-valid when its upper half with P1 has an even
number of ones and its lower half with P2 an odd one (`parityOk_eq_one_iff_halves`), and a changed bit flips the half it stands
in (`oddHalf_flip`). -/

namespace Sys2Proof.Machine

/-! ### Counting ones in runs of bits -/

/-- Ones are counted in two parts. -/
theorem onesBelow_add (n k : Nat) (bit : Nat → Bool) :
    onesBelow (n + k) bit = onesBelow n bit + onesBelow k (fun i => bit (n + i)) := by
  induction k with
  | zero => rfl
  | succ k ih => rw [← Nat.add_assoc, onesBelow, onesBelow, ih, Nat.add_assoc]

/-- A run of bits with a 1 at index `k` only has an odd count exactly when the run reaches `k`. -/
theorem onesBelow_run_single_odd (first n k : Nat) :
    (onesBelow n (fun i => decide (first + i = k)) % 2 == 1) = decide (first ≤ k ∧ k < first + n) := by
  induction n with
  | zero => simp [onesBelow]
  | succ n ih =>
    rw [onesBelow_succ_odd, ih]
    by_cases h : first + n = k
    · subst h; simp
    · rw [decide_eq_false h, Bool.xor_false, decide_eq_decide]
      omega

/-! ### The two halves of a word, each with its parity bit (R93) -/

/-- The thirteen bits from index `first` on hold an odd number of ones. From 13 on they are the upper half of the payload
with P1, from 0 on the lower half with P2. -/
def oddHalf (first : Nat) (w : Word26) : Bool := onesBelow 13 (fun i => w.getLsbD (first + i)) % 2 == 1

/-- The upper half ends in P1. -/
theorem oddHalf_upper (w : Word26) : oddHalf 13 w = (oddOnes 13 w.getLsbD ^^ w.getLsbD 25) :=
  onesBelow_succ_odd 12 _

/-- The lower half begins with P2. -/
theorem oddHalf_lower (w : Word26) : oddHalf 0 w = (w.getLsbD 0 ^^ oddOnes 1 w.getLsbD) := by
  simp only [oddHalf, oddOnes_eq_xor, onesBelow_succ_odd, onesBelow_zero_odd]
  simp

/-- A word is parity-valid exactly when its upper half has an even and its lower half an odd number of ones. -/
theorem parityOk_eq_one_iff_halves (w : Word26) : parityOk w = 1 ↔ oddHalf 13 w = false ∧ oddHalf 0 w = true := by
  rw [parityOk_eq_one_iff, parityValid, oddHalf_upper, oddHalf_lower]
  simp [eq_comm (a := oddOnes 13 w.getLsbD), Bool.eq_not]

theorem parityOk_eq_zero_iff_ne_one (w : Word26) : parityOk w = 0 ↔ ¬ parityOk w = 1 := by
  rw [parityOk_eq_zero_iff, parityOk_eq_one_iff, Bool.not_eq_true]

/-! ### A changed bit -/

theorem getLsbD_flip (w : Word26) {i : Nat} (hi : i < 26) (j : Nat) :
    (w ^^^ 1#26 <<< i).getLsbD j = (w.getLsbD j ^^ decide (j = i)) := by
  rw [BitVec.getLsbD_xor, ← BitVec.twoPow_eq, BitVec.getLsbD_twoPow]
  simp [hi, eq_comm]

/-- Changing a bit flips the oddness of a half exactly when the bit stands in it. -/
theorem oddHalf_flip (first : Nat) (w : Word26) {i : Nat} (hi : i < 26) :
    oddHalf first (w ^^^ 1#26 <<< i) = (oddHalf first w ^^ decide (first ≤ i ∧ i < first + 13)) := by
  simp only [oddHalf, getLsbD_flip w hi]
  rw [onesBelow_xor_odd, onesBelow_run_single_odd]

/-- Changing a bit of the upper half flips the upper oddness, and no other change does. -/
theorem oddHalf_upper_flip (w : Word26) {i : Nat} (hi : i < 26) :
    oddHalf 13 (w ^^^ 1#26 <<< i) = (oddHalf 13 w ^^ decide (13 ≤ i)) := by
  rw [oddHalf_flip 13 w hi, decide_eq_decide.2 (and_iff_left hi)]

/-- Changing a bit of the lower half flips the lower oddness, and no other change does. -/
theorem oddHalf_lower_flip (w : Word26) {i : Nat} (hi : i < 26) :
    oddHalf 0 (w ^^^ 1#26 <<< i) = (oddHalf 0 w ^^ decide (i < 13)) := by
  simp only [oddHalf_flip 0 w hi, Nat.zero_le, true_and, Nat.zero_add]

/-! ### The ones of the whole word -/

/-- The ones of a word are those of its two halves. -/
theorem popcount_word (w : Word26) :
    (popcount (w.setWidth 32)).toNat = onesBelow 13 w.getLsbD + onesBelow 13 (fun i => w.getLsbD (13 + i)) := by
  have hbits : ∀ i < 32, (w.setWidth 32).getLsbD i = w.getLsbD i := fun i hi => by
    rw [BitVec.getLsbD_setWidth, decide_eq_true hi, Bool.true_and]
  rw [popcount_toNat, onesBelow_congr hbits, ← onesBelow_add]
  exact onesBelow_add_false (n := 26) (k := 6) fun i hi => BitVec.getLsbD_of_ge w i hi

/-- A parity-valid word has an even count above, an odd one below and an odd one in all. -/
theorem onesBelow_halves_of_valid {w : Word26} (h : parityOk w = 1) :
    onesBelow 13 (fun i => w.getLsbD (13 + i)) % 2 = 0 ∧ onesBelow 13 w.getLsbD % 2 = 1 ∧
      (popcount (w.setWidth 32)).toNat % 2 = 1 := by
  obtain ⟨hupper, hlower⟩ := (parityOk_eq_one_iff_halves w).1 h
  have heven : onesBelow 13 (fun i => w.getLsbD (13 + i)) % 2 = 0 := by simpa [oddHalf] using hupper
  have hodd : onesBelow 13 w.getLsbD % 2 = 1 := by simpa [oddHalf] using hlower
  refine ⟨heven, hodd, ?_⟩
  rw [popcount_word]
  omega

/-- Settles O31: a changed bit flips its half, and a word is valid when its halves are even and odd. -/
theorem bitErrorsDetected : Obligations.BitErrorsDetected := by
  refine ⟨fun w i hw hi => ?_, fun w i j hw hij hj => ?_, fun w hw => onesBelow_halves_of_valid hw, by decide, by decide⟩
  · obtain ⟨hupper, hlower⟩ := (parityOk_eq_one_iff_halves w).1 hw
    rw [parityOk_eq_zero_iff_ne_one, parityOk_eq_one_iff_halves, oddHalf_upper_flip w hi, oddHalf_lower_flip w hi, hupper,
      hlower]
    simp
  · obtain ⟨hupper, hlower⟩ := (parityOk_eq_one_iff_halves w).1 hw
    have hi : i < 26 := hij.trans hj
    have hplaces : (13 ≤ i ↔ 13 ≤ j) ∧ (i < 13 ↔ j < 13) ↔ j ≤ 12 ∨ 13 ≤ i := by omega
    rw [parityOk_eq_one_iff_halves, oddHalf_upper_flip _ hj, oddHalf_lower_flip _ hj, oddHalf_upper_flip w hi,
      oddHalf_lower_flip w hi, hupper, hlower]
    simpa using hplaces

end Sys2Proof.Machine
end

section
/-! PROOFS: the parity family (41_parity.md), part 1: POPC, PGEN and PCHK. Their request words and the words they answer are
written out field by field. PCHK's five result bits are those of the parity unit, read off the word (`parityCheck_eq_bits`),
so its flag is DEC's and any two actual with any two expected bits occur (`exists_word_of_parity_bits`). -/

namespace Sys2Proof

/-- The request word of POPC: op number 4 and the unmasked value (R63, R105). -/
theorem encode_popc (v : U32) : encode (.popc v) = 0x4000000000 ||| v.setWidth 40 := by
  rw [encode, Instr.request, Request.toWord_of_mbz_zero, Instr.opnd]
  simp [Instr.mnemonic, Mnemonic.code, Instr.strictBit]

/-- The request word of PCHK: op number 3, the strict bit and the word (R63, R67). -/
theorem encode_pchk (strict : Bool) (w : Word26) :
    encode (.pchk strict w) = 0x3000000000 ||| (BitVec.ofBool strict).setWidth 40 <<< 32 ||| w.setWidth 40 := by
  rw [encode, Instr.request, Request.toWord_of_mbz_zero, Instr.opnd, setWidth_setWidth_portWord (by omega)]
  simp [Instr.mnemonic, Mnemonic.code, Instr.strictBit]

end Sys2Proof

namespace Sys2Proof.Machine

/-! ### POPC's and PGEN's answers (R105, R106) -/

/-- POPC answers the number of 1 bits of its operand. -/
theorem opResponse_popc_pack (v : U32) :
    (opResponse (.popc v)).pack = BitVec.ofNat 40 (onesBelow 32 v.getLsbD) := by
  rw [← popcount_toNat, BitVec.ofNat_toNat]
  exact ok_pack_setWidth (by omega) (popcount v)

/-- Two parity bits keep their places on the port. -/
theorem parityBits_setWidth (a b : ParityBit) :
    (parityBits a b).setWidth 40 = a.setWidth 40 <<< 25 ||| b.setWidth 40 := by
  revert a b
  decide

/-! ### The parity unit and PCHK's answer (R104, R107) -/

/-- The five outputs of the parity unit, read off the bits of the word. -/
theorem parityCheck_eq_bits (w : Word26) :
    parityCheck w = { ok := BitVec.ofBool (parityValid w)
                      a1 := BitVec.ofBool (w.getLsbD 25)
                      e1 := BitVec.ofBool (oddOnes 13 w.getLsbD)
                      a2 := BitVec.ofBool (w.getLsbD 0)
                      e2 := BitVec.ofBool (!oddOnes 1 w.getLsbD) } := by
  rw [← parityOk_eq_ofBool, ← p1Of_eq_ofBool, ← p1Expected_payloadOf, ← p2Of_eq_ofBool, ← p2Expected_payloadOf]
  rfl

/-- Five bits as the low bits of a result, `b4` highest. -/
def fiveBits (b4 b3 b2 b1 b0 : Bool) : U32 :=
  (BitVec.ofBool b4).setWidth 32 <<< 4 ||| (BitVec.ofBool b3).setWidth 32 <<< 3 ||| (BitVec.ofBool b2).setWidth 32 <<< 2
    ||| (BitVec.ofBool b1).setWidth 32 <<< 1 ||| (BitVec.ofBool b0).setWidth 32

/-- PCHK's result for a word: expected P2, actual P2, expected P1, actual P1 and the flag (R107). -/
def comparisonBits (w : Word26) : U32 :=
  fiveBits (!oddOnes 1 w.getLsbD) (w.getLsbD 0) (oddOnes 13 w.getLsbD) (w.getLsbD 25) (parityValid w)

/-- Without the strict bit, or with right parity, strict validation does not fail. -/
theorem not_mismatch_of_lax_or_valid {strict : Bool} {w : Word26} (h : strict = false ∨ parityValid w = true) :
    ¬ (strict = true ∧ parityOk w = 0) := by
  rintro ⟨rfl, hbad⟩
  simp [parityOk_eq_zero_iff.1 hbad] at h

/-- Strict PCHK of a word of wrong parity raises. -/
theorem opPchk_strict_of_invalid {w : Word26} (h : parityValid w = false) : opPchk true w = .error .parityCheckFailed :=
  if_pos ⟨rfl, parityOk_eq_zero_iff.2 h⟩

/-- Otherwise PCHK answers the comparison. -/
theorem opPchk_of_lax_or_valid {strict : Bool} {w : Word26} (h : strict = false ∨ parityValid w = true) :
    opPchk strict w = .ok (comparisonBits w) := by
  have hgood : ¬ (strict = true ∧ (parityCheck w).ok = 0) := not_mismatch_of_lax_or_valid h
  rw [opPchk, if_neg hgood, parityCheck_eq_bits]
  rfl

/-- The five bits on the port. -/
theorem fiveBits_setWidth (b4 b3 b2 b1 b0 : Bool) :
    (fiveBits b4 b3 b2 b1 b0).setWidth 40 =
      (BitVec.ofBool b4).setWidth 40 <<< 4 ||| (BitVec.ofBool b3).setWidth 40 <<< 3
        ||| (BitVec.ofBool b2).setWidth 40 <<< 2 ||| (BitVec.ofBool b1).setWidth 40 <<< 1
        ||| (BitVec.ofBool b0).setWidth 40 := by
  revert b4 b3 b2 b1 b0
  decide

/-- PCHK succeeds with the comparison, unless it is strict and the parity is wrong. -/
theorem opResponse_pchk_of_lax_or_valid {strict : Bool} {w : Word26} (h : strict = false ∨ parityValid w = true) :
    opResponse (.pchk strict w) = .ok (comparisonBits w) := by
  rw [opResponse, opPchk_of_lax_or_valid h, Response.ofResult_ok]

/-- Strict PCHK of a word of wrong parity answers ParityCheckFailed, PARITY. -/
theorem opResponse_pchk_strict_pack {w : Word26} (h : parityValid w = false) :
    (opResponse (.pchk true w)).pack = 0x4400000000#40 := by
  rw [opResponse, opPchk_strict_of_invalid h, Response.ofResult_error, raise_pack_parityCheckFailed]

/-! ### The statements about the operations and the unit -/

/-- Settles O32, by the outputs read off the bits. -/
theorem parityUnitOutputs : Obligations.ParityUnitOutputs := by
  intro w
  rw [parityCheck_eq_bits]
  exact ⟨rfl, rfl, rfl, rfl, rfl⟩

/-- Settles O23, by POPC's request word and its answer; a strict request is malformed. -/
theorem popcAnswersCount : Obligations.PopcAnswersCount := by
  refine ⟨fun v s => ?_, fun s hop hstrict => ?_⟩
  · rw [exec_eq_after, encode_popc, opResponse_popc_pack]
  · exact malformedRequestsAnswerIllegal.2 s (.inr (.inr (.inl ⟨hstrict, by omega, by omega⟩)))

/-- Settles O21: PGEN answers the expected bits, which are counted off the payload; the ill-formed requests are malformed. -/
theorem pgenAnswersParityBits : Obligations.PgenAnswersParityBits := by
  refine ⟨fun p s => ?_, fun s hop hbad => malformedRequestsAnswerIllegal.2 s ?_⟩
  · rw [exec_eq_after, encode_pgen, opResponse_pgen_pack, parityBits_setWidth, p1Expected_eq, p2Expected_eq]
  · obtain hstrict | hopnd := hbad
    · exact .inr (.inr (.inl ⟨hstrict, by omega, by omega⟩))
    · exact .inr (.inr (.inr (.inl ⟨.inr hop, hopnd⟩)))

/-- Settles O22, by PCHK's request word and its two answers; the ill-formed requests are malformed. -/
theorem pchkAnswersComparison : Obligations.PchkAnswersComparison := by
  refine ⟨fun strict w s h => ?_, fun w s h => ?_, fun s hop hopnd => ?_⟩
  · rw [exec_eq_after, encode_pchk, opResponse_pchk_of_lax_or_valid h, ok_pack_setWidth (by omega), comparisonBits,
      fiveBits_setWidth]
  · rw [exec_eq_after, encode_pchk, opResponse_pchk_strict_pack h]
    rfl
  · exact malformedRequestsAnswerIllegal.2 s (.inr (.inr (.inr (.inr ⟨.inr hop, hopnd⟩))))

/-! ### PCHK against DEC (R107) -/

/-- DEC succeeds where PCHK does, with the flag and the two fields. -/
theorem opResponse_dec_of_lax_or_valid {strict : Bool} {w : Word26} (h : strict = false ∨ parityValid w = true) :
    opResponse (.dec strict w) = .ok (decodedFields w) :=
  congrArg Response.ofResult (opDec_of_not_strict_mismatch (not_mismatch_of_lax_or_valid h))

/-- The lowest bit of PCHK's answer is the flag. -/
theorem opResponse_pchk_pack_flag {strict : Bool} {w : Word26} (h : strict = false ∨ parityValid w = true) :
    (opResponse (.pchk strict w)).pack.getLsbD 0 = parityValid w := by
  rw [opResponse_pchk_of_lax_or_valid h, ok_pack_setWidth (by omega)]
  simp [comparisonBits, fiveBits]

/-- Bit 24 of DEC's answer is the flag. -/
theorem opResponse_dec_pack_flag {strict : Bool} {w : Word26} (h : strict = false ∨ parityValid w = true) :
    (opResponse (.dec strict w)).pack.getLsbD 24 = parityValid w := by
  rw [opResponse_dec_pack h]
  simp

/-- A success is not the word that answers a parity failure. -/
theorem ok_pack_ne_parityCheckFailed {n : Nat} (v : BitVec n) : (Response.ok v).pack ≠ 0x4400000000#40 := by
  intro h
  have hstatus : Status.ok.code = 4#4 := (rspStatus_pack (Response.ok v)).symm.trans (congrArg rspStatus h)
  cases hstatus

/-- Five bits make the result `k` exactly when each is the bit of `k` at its place. -/
theorem fiveBits_eq_setWidth_iff (k : BitVec 5) (b4 b3 b2 b1 b0 : Bool) :
    fiveBits b4 b3 b2 b1 b0 = k.setWidth 32 ↔
      b4 = k.getLsbD 4 ∧ b3 = k.getLsbD 3 ∧ b2 = k.getLsbD 2 ∧ b1 = k.getLsbD 1 ∧ b0 = k.getLsbD 0 := by
  constructor
  · intro h
    have hbit : ∀ i, (fiveBits b4 b3 b2 b1 b0).getLsbD i = (k.setWidth 32).getLsbD i := fun i => by rw [h]
    exact ⟨by simpa [fiveBits] using hbit 4, by simpa [fiveBits] using hbit 3, by simpa [fiveBits] using hbit 2,
      by simpa [fiveBits] using hbit 1, by simpa [fiveBits] using hbit 0⟩
  · rintro ⟨rfl, rfl, rfl, rfl, rfl⟩
    revert k
    decide

/-- Any two actual parity bits stand beside any two expected ones in some word. -/
theorem exists_word_of_parity_bits (a1 e1 a2 e2 : Bool) : ∃ w : Word26,
    w.getLsbD 25 = a1 ∧ oddOnes 13 w.getLsbD = e1 ∧ w.getLsbD 0 = a2 ∧ (!oddOnes 1 w.getLsbD) = e2 := by
  refine ⟨assemble (BitVec.ofBool a1) ((BitVec.ofBool e1).setWidth 24 <<< 12 ||| (BitVec.ofBool !e2).setWidth 24)
    (BitVec.ofBool a2), ?_⟩
  revert a1 e1 a2 e2
  decide

/-- PCHK answers five bits exactly when they are the actual and the expected bits of some word with their flag. -/
theorem opPchk_lax_eq_iff (w : Word26) (k : BitVec 5) : opPchk false w = .ok (k.setWidth 32) ↔
    (!oddOnes 1 w.getLsbD) = k.getLsbD 4 ∧ w.getLsbD 0 = k.getLsbD 3 ∧ oddOnes 13 w.getLsbD = k.getLsbD 2 ∧
      w.getLsbD 25 = k.getLsbD 1 ∧ parityValid w = k.getLsbD 0 := by
  rw [opPchk_of_lax_or_valid (.inl rfl), Except.ok.injEq, comparisonBits, fiveBits_eq_setWidth_iff]

/-- Settles O33: both operations fail on the strict words of wrong parity and else carry the flag; the flag is the one bit
of PCHK's result that the other four determine. -/
theorem parityCheckAgreesWithDecode : Obligations.ParityCheckAgreesWithDecode := by
  refine ⟨fun strict w s => ⟨_, _, exec_eq_after _ s, exec_eq_after _ s, ?_⟩, fun k => ⟨?_, fun hk => ?_⟩⟩
  · by_cases h : strict = false ∨ parityValid w = true
    · have hpchk := ok_pack_ne_parityCheckFailed (comparisonBits w)
      have hdec := ok_pack_ne_parityCheckFailed (decodedFields w)
      rw [← opResponse_pchk_of_lax_or_valid h] at hpchk
      rw [← opResponse_dec_of_lax_or_valid h] at hdec
      exact ⟨iff_of_false hpchk hdec, fun _ => by rw [opResponse_pchk_pack_flag h, opResponse_dec_pack_flag h]⟩
    · obtain ⟨rfl, hbad⟩ : strict = true ∧ parityValid w = false := by simpa using h
      rw [opResponse_pchk_strict_pack hbad, opResponse_dec_strict_pack hbad]
      exact ⟨Iff.rfl, fun hstatus => nomatch hstatus⟩
  · rintro ⟨w, hw⟩
    obtain ⟨h4, h3, h2, h1, h0⟩ := (opPchk_lax_eq_iff w k).1 hw
    rw [← h0, ← h1, ← h2, ← h3, ← h4, parityValid]
  · obtain ⟨w, h1, h2, h3, h4⟩ :=
      exists_word_of_parity_bits (k.getLsbD 1) (k.getLsbD 2) (k.getLsbD 3) (k.getLsbD 4)
    refine ⟨w, (opPchk_lax_eq_iff w k).2 ⟨h4, h3, h2, h1, ?_⟩⟩
    rw [parityValid, h1, h2, h3, h4, hk]

end Sys2Proof.Machine
end

section
/-! PROOFS: the parity family (41_parity.md), part 2: the parity generator (R108). An expected bit is the oddness or evenness
of a twelve-bit slice of the payload, so it depends on that slice only, and a changed bit inverts it exactly when it stands
there (`oddOnes_xor_one_shiftLeft`). -/

namespace Sys2Proof.Machine

/-! ### A changed bit of a value -/

/-- Changing bit `i` changes no other bit. -/
theorem getLsbD_xor_one_shiftLeft {n : Nat} (v : BitVec n) {i : Nat} (hi : i < n) (j : Nat) :
    (v ^^^ 1#n <<< i).getLsbD j = (v.getLsbD j ^^ decide (j = i)) := by
  rw [BitVec.getLsbD_xor, ← BitVec.twoPow_eq, BitVec.getLsbD_twoPow]
  simp [hi, eq_comm]

/-- Changing a bit flips the oddness of twelve bits exactly when it is one of them. -/
theorem oddOnes_xor_one_shiftLeft {n : Nat} (first : Nat) (v : BitVec n) {i : Nat} (hi : i < n) :
    oddOnes first (v ^^^ 1#n <<< i).getLsbD = (oddOnes first v.getLsbD ^^ decide (first ≤ i ∧ i < first + 12)) := by
  simp only [oddOnes, getLsbD_xor_one_shiftLeft v hi]
  rw [onesBelow_xor_odd, onesBelow_run_single_odd]

/-- Changing a bit of the upper half inverts expected P1, and no other change does. -/
theorem p1Expected_xor_one_shiftLeft (p : Payload24) {i : Nat} (hi : i < 24) :
    p1Expected (p ^^^ 1#24 <<< i) = p1Expected p ^^^ BitVec.ofBool (decide (12 ≤ i)) := by
  rw [p1Expected_eq, p1Expected_eq, BitVec.ofBool_xor_ofBool, oddOnes_xor_one_shiftLeft 12 p hi,
    decide_eq_decide.2 (and_iff_left hi)]

/-- Changing a bit of the lower half inverts expected P2, and no other change does. -/
theorem p2Expected_xor_one_shiftLeft (p : Payload24) {i : Nat} (hi : i < 24) :
    p2Expected (p ^^^ 1#24 <<< i) = p2Expected p ^^^ BitVec.ofBool (decide (i < 12)) := by
  rw [p2Expected_eq, p2Expected_eq, BitVec.ofBool_xor_ofBool, oddOnes_xor_one_shiftLeft 0 p hi, Bool.not_xor]
  simp

/-! ### Slices -/

/-- The oddness of twelve bits is that of their slice. -/
theorem oddOnes_eq_oddOnes_slice {n : Nat} (first : Nat) (v : BitVec n) :
    oddOnes first v.getLsbD = oddOnes 0 (v.extractLsb' first 12).getLsbD := by
  have hbits : ∀ i < 12, v.getLsbD (first + i) = (v.extractLsb' first 12).getLsbD (0 + i) := fun i hi => by
    rw [Nat.zero_add, BitVec.getLsbD_extractLsb', decide_eq_true hi, Bool.true_and]
  rw [oddOnes, oddOnes, onesBelow_congr hbits]

/-- The population count of a slice counts the word's bits in its span. -/
theorem popcount_slice {n : Nat} (first len : Nat) (h : len ≤ 32) (v : BitVec n) :
    (popcount ((v.extractLsb' first len).setWidth 32)).toNat = onesBelow len fun i => v.getLsbD (first + i) := by
  obtain ⟨k, hk⟩ := Nat.exists_eq_add_of_le h
  rw [popcount_toNat, hk, onesBelow_add_false]
  · refine onesBelow_congr fun i hi => ?_
    simp [hi, show i < len + k by omega]
  · intro i hi
    simp [show ¬ i < len by omega]

/-! ### The facility and P1 -/

/-- Changing a bit of the card changes that bit of the payload. -/
theorem mkpayload_xor_one_shiftLeft (f : FacilityCode) (c : CardNumber) {i : Nat} (hi : i < 16) :
    mkpayload f (c ^^^ 1#16 <<< i) = mkpayload f c ^^^ 1#24 <<< i := by
  refine BitVec.eq_of_getLsbD_eq fun j _ => ?_
  rw [getLsbD_xor_one_shiftLeft _ (by omega), getLsbD_mkpayload, getLsbD_mkpayload, getLsbD_xor_one_shiftLeft c hi]
  split_ifs with hj
  · rfl
  · simp [show j ≠ i by omega]

/-- Settles O35: the expected bits follow their slices and the changed bits in them, a valid word has the expected bits and
its halves even and odd, and bit 12 of the payload belongs to the card but counts for P1. -/
theorem parityGeneratorFacts : Obligations.ParityGeneratorFacts := by
  refine ⟨fun p i hi => ⟨?_, ?_⟩, fun p q => ⟨fun h => ?_, fun h => ?_⟩, fun p a b => ?_, fun w hw => ?_, fun f => ?_⟩
  · rw [p1Expected_xor_one_shiftLeft p hi]
    by_cases h : 12 ≤ i <;> simp [h]
  · rw [p2Expected_xor_one_shiftLeft p hi]
    by_cases h : 12 ≤ i
    · simp [h, Nat.not_lt.2 h]
    · simp [h, Nat.not_le.1 h]
  · rw [p1Expected_eq, p1Expected_eq, oddOnes_eq_oddOnes_slice, h, ← oddOnes_eq_oddOnes_slice]
  · rw [p2Expected_eq, p2Expected_eq, oddOnes_eq_oddOnes_slice, h, ← oddOnes_eq_oddOnes_slice]
  · rw [parityOk_eq_one_iff_expected, p1Of_assemble, p2Of_assemble, payloadOf_assemble]
  · obtain ⟨heven, hodd, -⟩ := onesBelow_halves_of_valid hw
    rw [popcount_slice 13 13 (by omega), popcount_slice 0 13 (by omega)]
    simp only [Nat.zero_add]
    exact ⟨heven, hodd⟩
  · refine ⟨0, (0 : CardNumber) ^^^ 1#16 <<< 12, ?_⟩
    rw [mkpayload_xor_one_shiftLeft f 0 (by omega), p1Expected_xor_one_shiftLeft _ (by omega)]
    generalize p1Expected (mkpayload f 0) = b
    revert b
    decide

end Sys2Proof.Machine
end

section
/-! PROOFS: the range-check family (42_range.md). WCHK, FCHK and CCHK are one operation under three bounds (`RangeCheck`), so
what it answers is said once. Each bound is the greatest value of the type's width, so a value fails it exactly when a
higher bit is 1; in the expansions of R77 the checks therefore leave ENC and DEC no operand bit to refuse (R124). -/

namespace Sys2Proof

/-- The bits of an operand field from index `k` on are zero exactly when its value is below `2 ^ k`. -/
theorem extractLsb'_eq_zero_iff_lt {k n : Nat} (hkn : k + n = 32) {v : U32} : v.extractLsb' k n = 0 ↔ v.toNat < 2 ^ k := by
  refine ⟨fun h => ?_, extractLsb'_eq_zero_of_lt n⟩
  rw [← setWidth_extractLsb'_of_high hkn h]
  exact Laws.WellFormed.opnd_lt (by omega) _

/-- The request word of an operation whose strict bit is 0: its op number and its operand field (R63). -/
theorem encode_of_not_strict {i : Instr} (h : i.strictBit = false) :
    encode i = i.mnemonic.code.setWidth 40 <<< 36 ||| i.opnd.setWidth 40 := by
  rw [encode, Instr.request, Request.toWord_of_mbz_zero, h]
  simp

end Sys2Proof

namespace Sys2Proof.Machine

/-! ### The bounds (R120) -/

/-- A check fails exactly on the values past its bound. -/
theorem checkBound_eq_error_iff {bound v : U32} {e : Failure} :
    checkBound bound e v = .error e ↔ bound.toNat < v.toNat := by
  refine ⟨fun h => ?_, checkBound_of_lt e⟩
  by_contra hv
  rw [checkBound_of_le e (Nat.not_lt.1 hv)] at h
  cases h

/-- A check under the greatest value of `k` bits fails exactly when some higher bit is 1. -/
theorem checkBound_eq_error_iff_high_bits {k n : Nat} (hkn : k + n = 32) {bound v : U32} {e : Failure}
    (hbound : bound.toNat + 1 = 2 ^ k) : checkBound bound e v = .error e ↔ v.extractLsb' k n ≠ 0 := by
  rw [checkBound_eq_error_iff, ne_eq, extractLsb'_eq_zero_iff_lt hkn]
  omega

/-- A check under the greatest value of `k` bits returns its operand, whose higher bits are zero (R124). -/
theorem checkBound_ok_high_bits {k : Nat} (n : Nat) {bound v r : U32} {e : Failure} (hbound : bound.toNat + 1 = 2 ^ k)
    (h : checkBound bound e v = .ok r) : r = v ∧ r.extractLsb' k n = 0 := by
  obtain ⟨rfl, hv⟩ := checkBound_ok h
  exact ⟨rfl, extractLsb'_eq_zero_of_lt n (by omega)⟩

/-- Settles O36: each bound is the greatest value of its type's width. -/
theorem rangeFailsOnHighBits : Obligations.RangeFailsOnHighBits := fun _ =>
  ⟨checkBound_eq_error_iff_high_bits rfl rfl, checkBound_eq_error_iff_high_bits rfl rfl,
    checkBound_eq_error_iff_high_bits rfl rfl⟩

/-! ### The three operations (R121 to R123) -/

/-- The operation `op` of mnemonic `m` admits its operand field under `bound` and raises the OutOfRange error `e`. -/
structure RangeCheck (op : U32 → Instr) (m : Mnemonic) (bound : U32) (e : Failure) : Prop where
  mnemonic  : ∀ v, (op v).mnemonic = m
  strictBit : ∀ v, (op v).strictBit = false
  opnd      : ∀ v, (op v).opnd = v
  response  : ∀ v, opResponse (op v) = .ofResult (checkBound bound e v)
  status    : e.status = .outOfRange

theorem rangeCheck_wchk : RangeCheck .wchk .WCHK wordMax .outOfRangeWord :=
  ⟨fun _ => rfl, fun _ => rfl, fun _ => rfl, fun _ => rfl, rfl⟩

theorem rangeCheck_fchk : RangeCheck .fchk .FCHK facilityMax .outOfRangeFacility :=
  ⟨fun _ => rfl, fun _ => rfl, fun _ => rfl, fun _ => rfl, rfl⟩

theorem rangeCheck_cchk : RangeCheck .cchk .CCHK cardMax .outOfRangeCard :=
  ⟨fun _ => rfl, fun _ => rfl, fun _ => rfl, fun _ => rfl, rfl⟩

section
variable {op : U32 → Instr} {m : Mnemonic} {bound v : U32} {e : Failure}

/-- The request word of a range check: its op number and the value. -/
theorem RangeCheck.encode_eq (h : RangeCheck op m bound e) (v : U32) :
    encode (op v) = m.code.setWidth 40 <<< 36 ||| v.setWidth 40 := by
  rw [encode_of_not_strict (h.strictBit v), h.mnemonic, h.opnd]

/-- A value up to the bound is answered with itself. -/
theorem RangeCheck.response_of_le (h : RangeCheck op m bound e) (hv : v.toNat ≤ bound.toNat) :
    opResponse (op v) = .ok v := by
  rw [h.response, checkBound_of_le e hv, Response.ofResult_ok]

/-- A value past the bound is answered with the check's error. -/
theorem RangeCheck.response_of_lt (h : RangeCheck op m bound e) (hv : bound.toNat < v.toNat) :
    opResponse (op v) = .raise e := by
  rw [h.response, checkBound_of_lt e hv, Response.ofResult_error]

/-- A range check of a value up to the bound records the value as its answer. -/
theorem RangeCheck.exec_of_le (h : RangeCheck op m bound e) (hv : v.toNat ≤ bound.toNat) (s : State) :
    exec (op v) s = .next (s.after (m.code.setWidth 40 <<< 36 ||| v.setWidth 40) (v.setWidth 40)) := by
  rw [exec_eq_after, h.encode_eq, h.response_of_le hv, ok_pack_setWidth (by omega)]

/-- A range check of a value past the bound records the word of the check's error as its answer. -/
theorem RangeCheck.exec_of_lt {rsp : PortWord} (h : RangeCheck op m bound e) (hrsp : (Response.raise e).pack = rsp)
    (hv : bound.toNat < v.toNat) (s : State) :
    exec (op v) s = .next (s.after (m.code.setWidth 40 <<< 36 ||| v.setWidth 40) rsp) := by
  rw [exec_eq_after, h.encode_eq, h.response_of_lt hv, hrsp]

end

/-- A strict request for an operation without a strict mode is answered IllegalRequest (R65). -/
theorem answersIllegal_of_strict {s : State} (hdec : opOf s.req ≠ 1) (hpchk : opOf s.req ≠ 3)
    (hstrict : s.req.getLsbD 32 = true) : AnswersIllegal s :=
  malformedRequestsAnswerIllegal.2 s (.inr (.inr (.inl ⟨hstrict, hdec, hpchk⟩)))

/-- Settles O24: WCHK is the range check under 67108863; a strict request is malformed. -/
theorem wchkAdmitsWords : Obligations.WchkAdmitsWords :=
  ⟨fun _ s hv => rangeCheck_wchk.exec_of_le hv s,
    fun _ s hv => rangeCheck_wchk.exec_of_lt raise_pack_outOfRangeWord hv s,
    fun _ hop hstrict => answersIllegal_of_strict (by omega) (by omega) hstrict⟩

/-- Settles O25: FCHK is the range check under 255; a strict request is malformed. -/
theorem fchkAdmitsFacilities : Obligations.FchkAdmitsFacilities :=
  ⟨fun _ s hv => rangeCheck_fchk.exec_of_le hv s,
    fun _ s hv => rangeCheck_fchk.exec_of_lt raise_pack_outOfRangeFacility hv s,
    fun _ hop hstrict => answersIllegal_of_strict (by omega) (by omega) hstrict⟩

/-- Settles O26: CCHK is the range check under 65535; a strict request is malformed. -/
theorem cchkAdmitsCards : Obligations.CchkAdmitsCards :=
  ⟨fun _ s hv => rangeCheck_cchk.exec_of_le hv s,
    fun _ s hv => rangeCheck_cchk.exec_of_lt raise_pack_outOfRangeCard hv s,
    fun _ hop hstrict => answersIllegal_of_strict (by omega) (by omega) hstrict⟩

/-! ### Programs that never raise IllegalRequest (R124, R172) -/

/-- No run of the lines under these bindings ends with IllegalRequest. -/
def NeverIllegal (ls : List Line) (env : Bindings) : Prop :=
  ∀ s : State, (runLines ls env s).ended ≠
    .failed Failure.illegalRequest.status.code Failure.illegalRequest.field.code

theorem neverIllegal_nil (env : Bindings) : NeverIllegal [] env := fun _ => nofun

/-- A failure of another status is not IllegalRequest. -/
theorem failed_ne_illegal {e : Failure} (h : e.status ≠ .illegalRequest) :
    ProgramEnd.failed e.status.code e.field.code ≠
      .failed Failure.illegalRequest.status.code Failure.illegalRequest.field.code :=
  fun heq => h (Status.code_injective (ProgramEnd.failed.inj heq).1)

/-- A name reads as its newest binding (log entry 5). -/
theorem eval_name_cons_self (n : Name) (v : U32) (env : Bindings) : (Expr.name n).eval ((n, v) :: env) = some v := by
  rw [eval_name, lookup_cons_eq_ite, if_pos rfl]

section
variable {n : Name} {x : Expr} {env : Bindings} {ls : List Line}

/-- A line that checks a range is never illegal when the lines after it are not, with a value up to the bound bound to its
name. -/
theorem RangeCheck.neverIllegal_cons {op : U32 → Instr} {m : Mnemonic} {bound : U32} {e : Failure}
    (h : RangeCheck op m bound e) (hrest : ∀ v : U32, v.toNat ≤ bound.toNat → NeverIllegal ls ((n, v) :: env)) :
    NeverIllegal (⟨n, m, false, x⟩ :: ls) env := by
  intro s
  cases hx : x.eval env with
  | none =>
    rw [runLines_unbound (request_eq_none.2 hx)]
    nofun
  | some v =>
    have hopnd : x.eval env = some (op v).opnd := by rw [hx, h.opnd]
    by_cases hv : v.toNat ≤ bound.toNat
    · rw [runLines_of_ok (h.response_of_le hv) (h.mnemonic v) (h.strictBit v) hopnd]
      exact hrest v hv _
    · have hstatus : e.status ≠ .ok := by rw [h.status]; nofun
      rw [runLines_of_error (h.response_of_lt (Nat.not_le.1 hv)) hstatus (h.mnemonic v) (h.strictBit v) hopnd]
      exact failed_ne_illegal (by rw [h.status]; nofun)

/-- A last line that decodes a word is never illegal: it finishes, or fails the strict parity check. -/
theorem neverIllegal_dec {strict : Bool} {w : Word26} (hx : x.eval env = some (w.setWidth 32)) :
    NeverIllegal [⟨n, .DEC, strict, x⟩] env := by
  intro s
  by_cases hbad : strict = true ∧ (codecDecode w).parityOk = 0
  · rw [runLines_dec_of_mismatch hx hbad]
    exact failed_ne_illegal nofun
  · rw [(runLines_dec_of_not_mismatch hx hbad).1]
    nofun

/-- ENCFC's three lines are never illegal when the lines after them are not, with a word bound to the last name: the two
checks make ENC's operand a facility and a card. -/
theorem neverIllegal_encfcLines_append {t1 t2 w : Name} {fv cv : Expr} (hne : t1 ≠ t2)
    (hrest : ∀ (word : Word26) (env' : Bindings), NeverIllegal ls ((w, word.setWidth 32) :: env')) :
    NeverIllegal (encfcLines t1 t2 w fv cv ++ ls) env := by
  rw [encfcLines, List.cons_append, List.cons_append, List.singleton_append]
  refine rangeCheck_fchk.neverIllegal_cons fun f hf => rangeCheck_cchk.neverIllegal_cons fun c hc s => ?_
  have hoperand : (Expr.or (.shl (.name t1) 16) (.name t2)).eval ((t2, c) :: (t1, f) :: env) =
      some ((f.setWidth 8).setWidth 32 <<< 16 ||| (c.setWidth 16).setWidth 32) := by
    rw [setWidth_setWidth_of_lt (Nat.lt_succ_of_le hf), setWidth_setWidth_of_lt (Nat.lt_succ_of_le hc)]
    simp [Expr.eval, lookup_cons_eq_ite, hne]
  rw [runLines_enc hoperand]
  exact hrest _ _ _

end

/-- An expansion with distinct first two names is never illegal. -/
theorem neverIllegal_expand (p : Pseudo) {t1 t2 : Name} (t3 : Name) (hne : t1 ≠ t2) (env : Bindings) :
    NeverIllegal (p.expand t1 t2 t3) env := by
  cases p with
  | encfc w fv cv => exact neverIllegal_encfcLines_append (ls := []) hne fun _ _ => neverIllegal_nil _
  | convfc r fv cv =>
    exact neverIllegal_encfcLines_append hne fun _ _ => neverIllegal_dec (eval_name_cons_self _ _ _)
  | convd strict r v =>
    refine rangeCheck_wchk.neverIllegal_cons fun u hu => neverIllegal_dec (w := u.setWidth 26) ?_
    rw [eval_name_cons_self, setWidth_setWidth_of_lt (Nat.lt_succ_of_le hu)]

/-- Settles O39: an admitted value has no bit above its type's width, so ENC and DEC never refuse an operand that the checks
let pass; of the fresh names it is enough that the first two differ. -/
theorem pseudoInstructionsNeverIllegal : Obligations.PseudoInstructionsNeverIllegal := by
  refine ⟨fun v r => ⟨checkBound_ok_high_bits 6 rfl, checkBound_ok_high_bits 24 rfl, checkBound_ok_high_bits 16 rfl⟩,
    fun p t1 t2 t3 env s hfresh => ?_⟩
  have hne : t1 ≠ t2 := by
    obtain ⟨hnodup, -⟩ := hfresh
    rintro rfl
    simp at hnodup
  exact neverIllegal_expand p t3 hne env s

end Sys2Proof.Machine
end

section
/-! PROOFS: the host text family (43_host_text.md), part 1: digits, hex texts and rendering. The sixteen hex digits of either
case are the characters `hexChar` (`hexValue?_eq_some_iff`), and a text's value is the positional value of its digits
(`hexNumber_eq_ofDigits`), so parsing undoes rendering. -/

namespace Sys2Proof.Machine

/-! ### The digits (R135) -/

/-- The sixteen hex digits of a case, in the order of their values. -/
def hexDigits (uppercase : Bool) : Text := (if uppercase then "0123456789ABCDEF" else "0123456789abcdef").toList

theorem hexDigits_length (uppercase : Bool) : (hexDigits uppercase).length = 16 := by
  cases uppercase <;> rfl

theorem hexDigits_getElem?_toNat (uppercase : Bool) (d : BitVec 4) :
    (hexDigits uppercase)[d.toNat]? = some (hexChar uppercase d) := by
  revert uppercase d
  decide

theorem hexDigits_getElem?_eq_some_iff {uppercase : Bool} {d : Nat} {c : Char} :
    (hexDigits uppercase)[d]? = some c ↔ ∃ x : BitVec 4, x.toNat = d ∧ hexChar uppercase x = c := by
  constructor
  · intro h
    have hd : d < 2 ^ 4 := (List.getElem?_eq_some_iff.1 h).1.trans_eq (hexDigits_length uppercase)
    have hx : (BitVec.ofNat 4 d).toNat = d := Nat.mod_eq_of_lt hd
    refine ⟨BitVec.ofNat 4 d, hx, Option.some.inj ?_⟩
    rw [← hexDigits_getElem?_toNat, hx, h]
  · rintro ⟨x, rfl, rfl⟩
    exact hexDigits_getElem?_toNat uppercase x

theorem hexValue?_hexChar (uppercase : Bool) (d : BitVec 4) : hexValue? (hexChar uppercase d) = some d.toNat := by
  revert uppercase d
  decide

/-- A character with the value `d` is `0` to `9` or a letter of one of the two cases, as many places on as the value says. -/
theorem hexValue?_cases {c : Char} {d : Nat} (h : hexValue? c = some d) :
    (d < 10 ∧ c.toNat = 48 + d) ∨ (10 ≤ d ∧ d < 16 ∧ (c.toNat = 97 + (d - 10) ∨ c.toNat = 65 + (d - 10))) := by
  simp only [hexValue?] at h
  split_ifs at h
  all_goals
    cases h
    omega

theorem hexValue?_lt {c : Char} {d : Nat} (h : hexValue? c = some d) : d < 16 := by
  have := hexValue?_cases h
  omega

/-- The characters with a value are the digits that rendering writes, of either case. -/
theorem hexValue?_eq_some_iff {c : Char} {d : Nat} :
    hexValue? c = some d ↔ ∃ (uppercase : Bool) (x : BitVec 4), x.toNat = d ∧ hexChar uppercase x = c := by
  constructor
  · intro h
    have hx : (BitVec.ofNat 4 d).toNat = d := Nat.mod_eq_of_lt (hexValue?_lt h)
    rw [← Char.ofNat_toNat c]
    rcases hexValue?_cases h with ⟨hd, hc⟩ | ⟨hd, -, hc | hc⟩
    · exact ⟨false, _, hx, by rw [hexChar, hx, if_pos hd, hc]⟩
    · exact ⟨false, _, hx, by rw [hexChar, hx, if_neg (Nat.not_lt.2 hd), hc]; rfl⟩
    · exact ⟨true, _, hx, by rw [hexChar, hx, if_neg (Nat.not_lt.2 hd), hc]; rfl⟩
  · rintro ⟨uppercase, x, rfl, rfl⟩
    exact hexValue?_hexChar uppercase x

theorem isDecimal_eq_true_iff {c : Char} : isDecimal c = true ↔ 48 ≤ c.toNat ∧ c.toNat ≤ 57 := by
  rw [isDecimal, Bool.and_eq_true, decide_eq_true_iff, decide_eq_true_iff]

theorem isDecimal_iff_mem (c : Char) : isDecimal c = true ↔ c ∈ "0123456789".toList := by
  constructor
  · intro h
    obtain ⟨hlow, hhigh⟩ := isDecimal_eq_true_iff.1 h
    have hdigits : ∀ d < 10, "0123456789".toList[d]? = some (Char.ofNat (48 + d)) := by decide
    have hc : c = Char.ofNat (48 + (c.toNat - 48)) := by rw [Nat.add_sub_cancel' hlow, Char.ofNat_toNat]
    rw [hc]
    exact List.mem_of_getElem? (hdigits _ (by omega))
  · have hdigits : "0123456789".toList.all isDecimal = true := by decide
    exact List.all_eq_true.1 hdigits c

/-- Settles O42: each value has its character in the list of either case, and no other character has a value. -/
theorem digitsAndTheirValues : Obligations.DigitsAndTheirValues := by
  refine ⟨fun c d => ?_, isDecimal_iff_mem, by decide⟩
  rw [hexValue?_eq_some_iff, Bool.exists_bool, ← hexDigits_getElem?_eq_some_iff, ← hexDigits_getElem?_eq_some_iff]
  rfl

/-! ### The value of a text (R136) -/

/-- Reading digits from the left, the first most significant, gives their positional value. -/
theorem foldl_eq_ofDigits (b : Nat) (value : Char → Nat) (t : Text) :
    t.foldl (fun n c => b * n + value c) 0 = Nat.ofDigits b (t.reverse.map value) := by
  rw [Nat.ofDigits_eq_foldr, List.foldl_eq_foldr_reverse, List.foldr_map]
  simp only [Nat.cast_id, Nat.add_comm]

section
variable {t : Text} {ds : List Nat}

/-- The value of a text whose characters have the values `ds`. -/
theorem hexNumber_eq_ofDigits (h : t.map hexValue? = ds.map some) : hexNumber t = Nat.ofDigits 16 ds.reverse := by
  have hvalues : t.map (fun c => (hexValue? c).getD 0) = ds := by
    have hget := congrArg (List.map (·.getD 0)) h
    simpa [Function.comp_def] using hget
  rw [hexNumber, foldl_eq_ofDigits, List.map_reverse, hvalues]

theorem all_isHexDigit (h : t.map hexValue? = ds.map some) : t.all isHexDigit = true := by
  refine List.all_eq_true.2 fun c hc => ?_
  obtain ⟨d, -, hd⟩ := List.mem_map.1 (h ▸ List.mem_map_of_mem hc : hexValue? c ∈ ds.map some)
  rw [isHexDigit, ← hd, Option.isSome_some]

/-- Eight hex digits fit in 32 bits. -/
theorem ofDigits_hex_lt (h : t.map hexValue? = ds.map some) (hlen : t.length ≤ 8) :
    Nat.ofDigits 16 ds.reverse < 2 ^ 32 := by
  have hdigit : ∀ d ∈ ds.reverse, d < 16 := fun d hd => by
    obtain ⟨c, -, hc⟩ := List.mem_map.1 (h ▸ List.mem_map_of_mem (List.mem_reverse.1 hd) : some d ∈ t.map hexValue?)
    exact hexValue?_lt hc
  have hds : ds.reverse.length ≤ 8 := by
    have hcount := congrArg List.length h
    rw [List.length_map, List.length_map] at hcount
    rw [List.length_reverse]
    omega
  calc Nat.ofDigits 16 ds.reverse
      < 16 ^ ds.reverse.length := Nat.ofDigits_lt_base_pow_length (by decide) hdigit
    _ ≤ 16 ^ 8 := Nat.pow_le_pow_right (by decide) hds

end

/-! ### Parsing a hex text (R136, R138) -/

theorem parseWord26FromDecimal_of_le {v : U32} (h : v.toNat ≤ 0x3FFFFFF) :
    parseWord26FromDecimal v = .ok (v.setWidth 26) := by
  rw [parseWord26FromDecimal, opWchk, checkBound_of_le _ h]
  rfl

theorem parseWord26FromDecimal_of_lt {v : U32} (h : 0x3FFFFFF < v.toNat) :
    parseWord26FromDecimal v = .error ⟨.outOfRange, .word⟩ := by
  rw [parseWord26FromDecimal, opWchk, checkBound_of_lt (bound := wordMax) _ h]
  rfl

/-- A word's own value is read as the word. -/
theorem parseWord26FromDecimal_setWidth (w : Word26) : parseWord26FromDecimal (w.setWidth 32) = .ok w := by
  rw [parseWord26FromDecimal_of_le (Nat.le_of_lt_succ (Laws.WellFormed.opnd_lt (by omega) w)),
    BitVec.setWidth_setWidth_of_le _ (by omega), BitVec.setWidth_eq]

theorem parseWord26FromHex_of_bad {t : Text} (h : t.length = 0 ∨ 8 < t.length ∨ ∃ c ∈ t, hexValue? c = none) :
    parseWord26FromHex (some t) = .error ⟨.invalidFormat, .word⟩ := by
  refine if_pos (h.imp_right (Or.imp_right ?_))
  rintro ⟨c, hc, hnone⟩
  exact List.all_eq_false.2 ⟨c, hc, by simp [isHexDigit, hnone]⟩

/-- A text of one to eight hex digits is read as its value, under the range check. -/
theorem parseWord26FromHex_of_digits {t : Text} {ds : List Nat} (hpos : 1 ≤ t.length) (hlen : t.length ≤ 8)
    (h : t.map hexValue? = ds.map some) :
    parseWord26FromHex (some t) = parseWord26FromDecimal (BitVec.ofNat 32 (Nat.ofDigits 16 ds.reverse)) := by
  have hgood : ¬ (t.length = 0 ∨ 8 < t.length ∨ t.all isHexDigit = false) :=
    not_or.2 ⟨by omega, not_or.2 ⟨by omega, by simp [all_isHexDigit h]⟩⟩
  rw [parseWord26FromHex, if_neg hgood, hexNumber_eq_ofDigits h]

/-- Settles O43: a text of good digits is range-checked by its value, which fits in 32 bits. -/
theorem hexTextParses : Obligations.HexTextParses := by
  refine ⟨rfl, fun t => parseWord26FromHex_of_bad, fun t ds hpos hlen h => ?_⟩
  have hvalue : (BitVec.ofNat 32 (Nat.ofDigits 16 ds.reverse)).toNat = Nat.ofDigits 16 ds.reverse :=
    Nat.mod_eq_of_lt (ofDigits_hex_lt h hlen)
  rw [parseWord26FromHex_of_digits hpos hlen h]
  refine ⟨fun hgt => parseWord26FromDecimal_of_lt (by rwa [hvalue]), fun hle => ?_⟩
  rw [parseWord26FromDecimal_of_le (by rwa [hvalue]), BitVec.setWidth_ofNat_of_le (by decide)]

/-! ### Rendering (R141, R142) -/

/-- Digit `i` of a word's eight hex digits is that nibble of it, by arithmetic. -/
theorem toNat_nibble (w : Word26) {i : Nat} (hi : i < 8) :
    ((w.setWidth 32).extractLsb' (28 - 4 * i) 4).toNat = w.toNat / 16 ^ (7 - i) % 16 := by
  have hpow : 2 ^ (28 - 4 * i) = 16 ^ (7 - i) := by
    rw [show 28 - 4 * i = 4 * (7 - i) by omega, Nat.pow_mul]
  rw [BitVec.extractLsb'_toNat, Nat.shiftRight_eq_div_pow, BitVec.toNat_setWidth_of_le (by decide), hpow]

theorem renderHex_length (w : Word26) (uppercase : Bool) : (renderHex w uppercase).length = 8 := by
  rw [renderHex, List.length_map, List.length_range]

theorem renderHex_getElem? (w : Word26) (uppercase : Bool) {i : Nat} (hi : i < 8) :
    (renderHex w uppercase)[i]? = (hexDigits uppercase)[w.toNat / 16 ^ (7 - i) % 16]? := by
  rw [renderHex, List.getElem?_map, List.getElem?_range hi, Option.map_some, ← toNat_nibble w hi,
    hexDigits_getElem?_toNat]

theorem renderBinary_length (w : Word26) : (renderBinary w).length = 26 := by
  rw [renderBinary, List.length_map, List.length_range]

theorem renderBinary_getElem? (w : Word26) {i : Nat} (hi : i < 26) :
    (renderBinary w)[i]? = some (if w.getLsbD (25 - i) then '1' else '0') := by
  rw [renderBinary, List.getElem?_map, List.getElem?_range hi, Option.map_some]

/-- Settles O45, nibble by nibble. -/
theorem renderHexDigits : Obligations.RenderHexDigits := fun w uppercase =>
  ⟨renderHex_length w uppercase, fun _ => renderHex_getElem? w uppercase⟩

/-- Settles O46, bit by bit. -/
theorem renderBinaryBits : Obligations.RenderBinaryBits := by
  refine fun w => ⟨renderBinary_length w, fun i hi => ?_⟩
  rw [renderBinary_getElem? w hi, BitVec.getLsbD, Nat.testBit_eq_decide_div_mod_eq]
  simp only [decide_eq_true_eq]

/-! ### Parsing undoes rendering (R150) -/

/-- The `k` low digits of a number, least significant first, have its value modulo `b ^ k`. -/
theorem ofDigits_range (b n k : Nat) : Nat.ofDigits b ((List.range k).map fun i => n / b ^ i % b) = n % b ^ k := by
  induction k with
  | zero => simp [Nat.mod_one]
  | succ k ih =>
    rw [List.range_succ, List.map_append, Nat.ofDigits_append, ih, List.length_map, List.length_range,
      List.map_singleton, Nat.ofDigits_singleton, Nat.mod_pow_succ]

theorem map_hexValue?_renderHex (w : Word26) (uppercase : Bool) :
    (renderHex w uppercase).map hexValue? = ((List.range 8).map fun i => w.toNat / 16 ^ i % 16).reverse.map some := by
  have hreverse : (List.range 8).reverse = (List.range 8).map (7 - ·) := by decide
  rw [renderHex, ← List.map_reverse, hreverse, List.map_map, List.map_map, List.map_map]
  refine List.map_congr_left fun i hi => ?_
  rw [Function.comp_apply, Function.comp_apply, Function.comp_apply, hexValue?_hexChar,
    toNat_nibble w (List.mem_range.1 hi)]

theorem parseWord26FromHex_renderHex (w : Word26) (uppercase : Bool) :
    parseWord26FromHex (some (renderHex w uppercase)) = .ok w := by
  have hlen := renderHex_length w uppercase
  have hw : w.toNat < 2 ^ 26 := w.isLt
  rw [parseWord26FromHex_of_digits (by omega) (by omega) (map_hexValue?_renderHex w uppercase), List.reverse_reverse,
    ofDigits_range, Nat.mod_eq_of_lt (by omega), BitVec.ofNat_toNat]
  exact parseWord26FromDecimal_setWidth w

theorem renderHex_injective (uppercase : Bool) : Function.Injective fun w => renderHex w uppercase := fun w v h =>
  Except.ok.inj <| by
    rw [← parseWord26FromHex_renderHex w uppercase, ← parseWord26FromHex_renderHex v uppercase]
    exact congrArg (parseWord26FromHex ∘ some) h

theorem renderBinary_injective : Function.Injective renderBinary := fun w v h =>
  BitVec.eq_of_getLsbD_eq fun i hi => by
    have hchar := congrArg (·[25 - i]?) h
    rw [renderBinary_getElem? w (by omega), renderBinary_getElem? v (by omega), Nat.sub_sub_self (by omega)] at hchar
    cases hw : w.getLsbD i <;> cases hv : v.getLsbD i <;> simp [hw, hv] at hchar ⊢

end Sys2Proof.Machine
end

section
/-! PROOFS: the host text family (43_host_text.md), part 2: facility texts. Every text is an optional tag and the rest
`dropFc` leaves (`exists_tag_append_dropFc`), so a text matches exactly when that rest is a numeral. -/

namespace Sys2Proof.Machine

/-! ### The tag and the numeral (R139 step 3) -/

/-- The optional "FC" of a facility text, in any case. -/
def facilityTags : List Text := [[], ['F', 'C'], ['F', 'c'], ['f', 'C'], ['f', 'c']]

/-- One or more decimal digits. -/
def Numeral (ds : Text) : Prop := ds ≠ [] ∧ ∀ c ∈ ds, isDecimal c = true

theorem exists_tag_append_dropFc (t : Text) : ∃ tag ∈ facilityTags, t = tag ++ dropFc t := by
  match t with
  | [] | [_] => exact ⟨[], by simp [facilityTags], rfl⟩
  | a :: b :: rest =>
    by_cases h : (a = 'F' ∨ a = 'f') ∧ (b = 'C' ∨ b = 'c')
    · refine ⟨[a, b], ?_, by rw [dropFc, if_pos h]; rfl⟩
      rcases h with ⟨rfl | rfl, rfl | rfl⟩ <;> simp [facilityTags]
    · exact ⟨[], by simp [facilityTags], by rw [dropFc, if_neg h]; rfl⟩

theorem dropFc_of_numeral {ds : Text} (h : Numeral ds) : dropFc ds = ds := by
  obtain ⟨-, hdigits⟩ := h
  match ds with
  | [] | [_] => rfl
  | a :: b :: rest =>
    refine if_neg ?_
    rintro ⟨rfl | rfl, -⟩
    · exact absurd (hdigits 'F' List.mem_cons_self) (by decide)
    · exact absurd (hdigits 'f' List.mem_cons_self) (by decide)

theorem dropFc_tag_append {tag ds : Text} (htag : tag ∈ facilityTags) (h : Numeral ds) : dropFc (tag ++ ds) = ds := by
  simp only [facilityTags, List.mem_cons, List.not_mem_nil, or_false] at htag
  rcases htag with rfl | rfl | rfl | rfl | rfl
  · exact dropFc_of_numeral h
  all_goals rfl

/-- What is left after the tag is a numeral exactly when the text is a tag and a numeral. -/
theorem numeral_dropFc_iff {t : Text} :
    Numeral (dropFc t) ↔ ∃ tag ∈ facilityTags, ∃ ds, Numeral ds ∧ t = tag ++ ds := by
  constructor
  · intro h
    obtain ⟨tag, htag, ht⟩ := exists_tag_append_dropFc t
    exact ⟨tag, htag, _, h, ht⟩
  · rintro ⟨tag, htag, ds, h, rfl⟩
    rwa [dropFc_tag_append htag h]

theorem not_numeral_iff {ds : Text} : ¬ Numeral ds ↔ ds = [] ∨ ds.all isDecimal = false := by
  rw [Numeral, not_and_or, not_not, ← List.all_eq_true, Bool.not_eq_true]

theorem decimalNumber_eq_ofDigits (ds : Text) :
    decimalNumber ds = Nat.ofDigits 10 (ds.reverse.map fun c => c.toNat - '0'.toNat) :=
  foldl_eq_ofDigits 10 decimalValue ds

/-! ### Trimming (R139 step 2) -/

section
variable {isWs : Char → Bool} {pre t post text : Text}

/-- Leading blanks go, up to the first character that is none. -/
theorem dropWhile_blank_append (hpre : ∀ c ∈ pre, isWs c = true) (ht : ∀ c ∈ t.head?, isWs c = false) :
    (pre ++ t).dropWhile isWs = t := by
  rw [List.dropWhile_append_of_pos hpre]
  cases t with
  | nil => rfl
  | cons a rest => rw [List.dropWhile_cons_of_neg (by simp [ht a rfl])]

/-- A text between blanks, without a blank at its ends, is what trimming leaves. -/
theorem trimWs_append (hne : t ≠ []) (hblank : ∀ c ∈ pre ++ post, isWs c = true)
    (hhead : ∀ c ∈ t.head?, isWs c = false) (hlast : ∀ c ∈ t.getLast?, isWs c = false) :
    trimWs isWs (pre ++ t ++ post) = t := by
  rw [List.forall_mem_append] at hblank
  obtain ⟨hpre, hpost⟩ := hblank
  have hleft : (pre ++ (t ++ post)).dropWhile isWs = t ++ post := by
    refine dropWhile_blank_append hpre ?_
    rwa [List.head?_append_of_ne_nil _ hne]
  have hright : (post.reverse ++ t.reverse).dropWhile isWs = t.reverse := by
    refine dropWhile_blank_append (fun c hc => hpost c (List.mem_reverse.1 hc)) ?_
    rwa [List.head?_reverse]
  rw [trimWs, List.append_assoc, hleft, List.reverse_append, hright, List.reverse_reverse]

/-! ### The six tests in their order (R139) -/

variable {facTrim : Bool} {intParseMax : Option Nat}

/-- What `parseFacilityText` makes of the text after the tag. -/
def facilityOfDigits (intParseMax : Option Nat) (digits : Text) : Except Failure FacilityCode :=
  if digits = [] ∨ digits.all isDecimal = false then .error .badFacility
  else if exceedsParseMax intParseMax (decimalNumber digits) then .error .badFacility
  else if 255 < decimalNumber digits then .error .outOfRangeFacility
  else .ok (BitVec.ofNat 8 (decimalNumber digits))

theorem parseFacilityText_of_blank (h : ∀ c ∈ text, isWs c = true) :
    parseFacilityText isWs facTrim intParseMax (some text) = .error ⟨.emptyInput, .facility⟩ :=
  if_pos (List.all_eq_true.2 h)

theorem parseFacilityText_of_not_blank (h : ∃ c ∈ text, isWs c = false) :
    parseFacilityText isWs facTrim intParseMax (some text) =
      facilityOfDigits intParseMax (dropFc (if facTrim then trimWs isWs text else text)) := by
  obtain ⟨c, hc, hws⟩ := h
  have hall : ¬ text.all isWs = true := fun hall => by
    rw [List.all_eq_true.1 hall c hc] at hws
    cases hws
  rw [parseFacilityText, if_neg hall]
  rfl

/-- Blanks around a text are trimmed where `FAC_TRIM` holds; where it does not, there are none. -/
theorem parseFacilityText_between_blanks (hseen : ∃ c ∈ t, isWs c = false)
    (htrim : facTrim = true → (∀ c ∈ pre ++ post, isWs c = true) ∧
      (∀ c ∈ t.head?, isWs c = false) ∧ (∀ c ∈ t.getLast?, isWs c = false))
    (hbare : facTrim = false → pre = [] ∧ post = []) :
    parseFacilityText isWs facTrim intParseMax (some (pre ++ t ++ post)) =
      facilityOfDigits intParseMax (dropFc t) := by
  obtain ⟨c, hc, hws⟩ := hseen
  have hread : (if facTrim then trimWs isWs (pre ++ t ++ post) else pre ++ t ++ post) = t := by
    cases facTrim with
    | true =>
      obtain ⟨hblank, hhead, hlast⟩ := htrim rfl
      exact trimWs_append (List.ne_nil_of_mem hc) hblank hhead hlast
    | false =>
      obtain ⟨rfl, rfl⟩ := hbare rfl
      simp
  rw [parseFacilityText_of_not_blank ⟨c, by simp [hc], hws⟩, hread]

end

section
variable {intParseMax : Option Nat} {ds : Text}

theorem exceedsParseMax_eq_true_iff {n : Nat} :
    exceedsParseMax intParseMax n = true ↔ ∃ m, intParseMax = some m ∧ m < n := by
  cases intParseMax <;> simp [exceedsParseMax]

theorem facilityOfDigits_of_not_numeral (h : ¬ Numeral ds) :
    facilityOfDigits intParseMax ds = .error ⟨.invalidFormat, .facility⟩ :=
  if_pos (not_numeral_iff.1 h)

theorem facilityOfDigits_of_exceeds (h : Numeral ds) (hmax : ∃ m, intParseMax = some m ∧ m < decimalNumber ds) :
    facilityOfDigits intParseMax ds = .error ⟨.invalidFormat, .facility⟩ := by
  rw [facilityOfDigits, if_neg (mt not_numeral_iff.2 (not_not.2 h)), if_pos (exceedsParseMax_eq_true_iff.2 hmax)]
  rfl

/-- A numeral that parses as an integer is tested against 255 (R139 step 6). -/
theorem facilityOfDigits_of_parsed (h : Numeral ds) (hmax : ∀ m, intParseMax = some m → decimalNumber ds ≤ m) :
    facilityOfDigits intParseMax ds =
      if 255 < decimalNumber ds then .error .outOfRangeFacility else .ok (BitVec.ofNat 8 (decimalNumber ds)) := by
  have hparsed : ¬ exceedsParseMax intParseMax (decimalNumber ds) = true := by
    rw [exceedsParseMax_eq_true_iff]
    rintro ⟨m, hm, hlt⟩
    exact Nat.not_le.2 hlt (hmax m hm)
  rw [facilityOfDigits, if_neg (mt not_numeral_iff.2 (not_not.2 h)), if_neg hparsed]

end

/-- Settles O44: trimming leaves the text between the blanks, which matches when what `dropFc` leaves is a numeral. -/
theorem facilityTextParses : Obligations.FacilityTextParses := by
  intro isWs facTrim intParseMax parse tags numeral value
  have hnumeral : ∀ ds, numeral ds ↔ Numeral ds := fun ds =>
    and_congr_right' (forall₂_congr fun c _ => (isDecimal_iff_mem c).symm)
  refine ⟨rfl, fun text => parseFacilityText_of_blank, fun pre t post hseen htrim hbare => ?_⟩
  have hparse : parse (some (pre ++ t ++ post)) = facilityOfDigits intParseMax (dropFc t) :=
    parseFacilityText_between_blanks hseen htrim hbare
  rw [hparse]
  refine ⟨fun hno => facilityOfDigits_of_not_numeral ?_, fun tag htag ds hds ht => ?_⟩
  · rw [numeral_dropFc_iff]
    rintro ⟨tag, htag, ds, hds, ht⟩
    exact hno ⟨tag, htag, ds, (hnumeral ds).2 hds, ht⟩
  · have hnum : Numeral ds := (hnumeral ds).1 hds
    have hvalue : decimalNumber ds = value ds := decimalNumber_eq_ofDigits ds
    rw [ht, dropFc_tag_append htag hnum]
    refine ⟨fun hmax => facilityOfDigits_of_exceeds hnum (hvalue ▸ hmax), fun hmax => ?_⟩
    rw [facilityOfDigits_of_parsed hnum (hvalue ▸ hmax), hvalue]
    exact ⟨fun hgt => if_pos hgt, fun hle => if_neg (Nat.not_lt.2 hle)⟩

/-! ### Numerals of facilities, and the round trips (R150) -/

theorem isAlphanum_of_mem_toDigits {n : Nat} {c : Char} (h : c ∈ Nat.toDigits 10 n) : c.isAlphanum = true := by
  rw [Char.isAlphanum, Nat.isDigit_of_mem_toDigits (by decide) (by decide) h, Bool.or_true]

theorem isAlphanum_of_mem_facilityTag {tag : Text} (htag : tag ∈ facilityTags) {c : Char} (h : c ∈ tag) :
    c.isAlphanum = true := by
  have hall : facilityTags.all (List.all · Char.isAlphanum) = true := by decide
  exact List.all_eq_true.1 (List.all_eq_true.1 hall tag htag) c h

/-- The decimal numeral of a number is a numeral with that value. -/
theorem numeral_toDigits (n : Nat) : Numeral (Nat.toDigits 10 n) := by
  refine ⟨Nat.toDigits_ne_nil, fun c hc => isDecimal_eq_true_iff.2 ?_⟩
  have hdigit := Nat.isDigit_of_mem_toDigits (by decide) (by decide) hc
  simpa [Char.isDigit, UInt32.le_iff_toNat_le] using hdigit

theorem decimalNumber_toDigits (n : Nat) : decimalNumber (Nat.toDigits 10 n) = n :=
  Nat.ofDigitChars_eq_foldl.symm.trans Nat.ofDigitChars_ten_toDigits

/-- A facility's numeral, with or without "FC", parses to it under every admitted value of the open parameters: it holds no
blank, and no bound on parsed integers is below 256. -/
theorem parseFacilityText_tag_toDigits {isWs : Char → Bool} {intParseMax : Option Nat} (facTrim : Bool) (f : FacilityCode)
    (hws : Config.AdmittedIsWs isWs) (hmax : Config.AdmittedIntParseMax intParseMax) {tag : Text}
    (htag : tag ∈ facilityTags) :
    parseFacilityText isWs facTrim intParseMax (some (tag ++ Nat.toDigits 10 f.toNat)) = .ok f := by
  obtain ⟨-, halphanum⟩ := hws
  have hnum := numeral_toDigits f.toNat
  have hf : f.toNat ≤ 255 := Nat.le_of_lt_succ f.isLt
  have hseen : ∀ c ∈ tag ++ Nat.toDigits 10 f.toNat, isWs c = false := fun c hc =>
    halphanum c ((List.mem_append.1 hc).elim (isAlphanum_of_mem_facilityTag htag) isAlphanum_of_mem_toDigits)
  obtain ⟨c, hc⟩ := List.exists_mem_of_ne_nil (Nat.toDigits 10 f.toNat) Nat.toDigits_ne_nil
  have hparse := parseFacilityText_between_blanks (intParseMax := intParseMax) (facTrim := facTrim)
    (pre := []) (post := []) ⟨c, List.mem_append_right tag hc, hseen c (List.mem_append_right tag hc)⟩
    (fun _ => ⟨nofun, fun c hc => hseen c (List.mem_of_head? hc), fun c hc => hseen c (List.mem_of_getLast? hc)⟩)
    (fun _ => ⟨rfl, rfl⟩)
  rw [List.nil_append, List.append_nil] at hparse
  rw [hparse, dropFc_tag_append htag hnum, facilityOfDigits_of_parsed hnum, decimalNumber_toDigits,
    if_neg (Nat.not_lt.2 hf), BitVec.ofNat_toNat, BitVec.setWidth_eq]
  exact fun m hm => (decimalNumber_toDigits f.toNat).trans_le (hf.trans (Nat.le_of_succ_le (hmax m hm)))

/-- Settles O47: rendering has a left inverse, and a numeral parses to its value. -/
theorem textRoundTrips : Obligations.TextRoundTrips :=
  ⟨parseWord26FromHex_renderHex, renderHex_injective, renderBinary_injective,
    fun _ facTrim _ f hws hmax _ => parseFacilityText_tag_toDigits facTrim f hws hmax⟩

end Sys2Proof.Machine
end

section
/-! PROOFS: the host text family (43_host_text.md), part 3: `Convert`. The word of each input form is said once; a word then
fails the strict test or is rendered (`renderedOutput`), whatever form it came from. -/

namespace Sys2Proof.Machine

/-! ### The word of an input (R143, R145) -/

section
variable {isWs : Char → Bool} {facTrim : Bool} {intParseMax : Option Nat}

theorem admitCard_setWidth (c : CardNumber) : admitCard (c.setWidth 32) = .ok c := by
  rw [admitCard, opCchk, checkBound_of_le _ (Nat.le_of_lt_succ (Laws.WellFormed.opnd_lt (by omega) c))]
  exact congrArg Except.ok ((BitVec.setWidth_setWidth_of_le c (by omega)).trans (BitVec.setWidth_eq c))

theorem inputWord_fromFacilityCard {text : Option Text} {f : FacilityCode}
    (h : parseFacilityText isWs facTrim intParseMax text = .ok f) (c : CardNumber) :
    inputWord isWs facTrim intParseMax (.fromFacilityCard text (c.setWidth 32)) = .ok (codecEncode f c) := by
  rw [inputWord, h, admitCard_setWidth]

end

/-! ### The strict test and the rendering (R144, R147, R148) -/

/-- The output for a word that passes the strict test: the bare hex text, or the aggregate with its fields. -/
def renderedOutput (tag : InputTag) (toggles : Toggles) (w : Word26) : ConvertOutput :=
  if toggles.rawHex then .bareHex (renderHex w toggles.uppercase)
  else .aggregate {
    hex := renderHex w toggles.uppercase, decimal := w, facility := w.extractLsb' 17 8, card := w.extractLsb' 1 16,
    parityOk := parityValid w, tag, binary := if toggles.includeBinary then some (renderBinary w) else none }

section
variable {tag : InputTag} {toggles : Toggles} {w : Word26}

theorem outputWord_of_lax_or_valid (h : toggles.strict = false ∨ parityValid w = true) :
    outputWord tag toggles w = .ok (renderedOutput tag toggles w) := by
  have hgood : ¬ (toggles.strict = true ∧ (codecDecode w).parityOk = 0) := not_mismatch_of_lax_or_valid h
  have hparity : decide ((codecDecode w).parityOk = 1) = parityValid w :=
    Bool.eq_iff_iff.2 (decide_eq_true_iff.trans parityOk_eq_one_iff)
  rw [outputWord, if_neg hgood, renderedOutput, ← facilityOf_payloadOf, ← cardOf_payloadOf, ← hparity]
  cases toggles.rawHex <;> rfl

theorem outputWord_strict_of_invalid (hstrict : toggles.strict = true) (h : parityValid w = false) :
    outputWord tag toggles w = .error ⟨.parityCheckFailed, .parity⟩ :=
  if_pos ⟨hstrict, parityOk_eq_zero_iff.2 h⟩

theorem renderedOutput_of_rawHex (h : toggles.rawHex = true) :
    renderedOutput tag toggles w = .bareHex (renderHex w toggles.uppercase) :=
  if_pos h

theorem renderedOutput_of_not_rawHex (h : toggles.rawHex = false) :
    ∃ c, renderedOutput tag toggles w = .aggregate c ∧ c.decimal = w ∧ c.facility = w.extractLsb' 17 8 ∧
      c.card = w.extractLsb' 1 16 ∧ c.parityOk = parityValid w ∧ c.tag = tag :=
  ⟨_, if_neg (by simp [h]), rfl, rfl, rfl, rfl, rfl⟩

end

/-! ### The statements about `Convert` -/

section
variable {isWs : Char → Bool} {facTrim : Bool} {intParseMax : Option Nat} {input : ConvertInput} {toggles : Toggles}

/-- A word that passes the strict test is rendered. -/
theorem convert_of_lax_or_valid {w : Word26} (hw : inputWord isWs facTrim intParseMax input = .ok w)
    (h : toggles.strict = false ∨ parityValid w = true) :
    convert isWs facTrim intParseMax input toggles = .ok (renderedOutput input.tag toggles w) := by
  rw [convert_of_word hw, outputWord_of_lax_or_valid h]

/-- A facility text that parses and a card convert, strictly too, from the word that carries both. -/
theorem convert_fromFacilityCard {text : Option Text} {f : FacilityCode}
    (h : parseFacilityText isWs facTrim intParseMax text = .ok f) (c : CardNumber) :
    convert isWs facTrim intParseMax (.fromFacilityCard text (c.setWidth 32)) toggles =
      .ok (renderedOutput .fromFacilityCard toggles (codecEncode f c)) :=
  convert_of_lax_or_valid (inputWord_fromFacilityCard h c) (.inr (parityValid_codecEncode f c))

end

/-- Settles O48: the strict test comes before the rendering, raw or not. -/
theorem strictConversion : Obligations.StrictConversion := by
  intro isWs facTrim intParseMax input toggles
  refine ⟨fun e => convert_of_error, fun w hw hinvalid => ⟨fun hstrict => ?_, fun hlax hraw => ?_, fun hlax hraw => ?_⟩⟩
  · rw [convert_of_word hw, outputWord_strict_of_invalid hstrict hinvalid]
  · rw [convert_of_lax_or_valid hw (.inl hlax), renderedOutput_of_rawHex hraw]
  · obtain ⟨c, hc, hdecimal, -, -, hparity, -⟩ := renderedOutput_of_not_rawHex (tag := input.tag) (w := w) hraw
    refine ⟨c, ?_, hparity.trans hinvalid, hdecimal⟩
    rw [convert_of_lax_or_valid hw (.inl hlax), hc]

/-- Settles O49: each form has its word or its error, and a word that passes the strict test is rendered. -/
theorem conversionAggregate : Obligations.ConversionAggregate := by
  intro isWs facTrim intParseMax toggles run output
  refine ⟨fun text w hparse => convert_of_lax_or_valid (input := .fromHex text) hparse,
    fun text e hparse => convert_of_error (input := .fromHex text) hparse,
    fun w => convert_of_lax_or_valid (input := .fromDecimal (w.setWidth 32)) (parseWord26FromDecimal_setWidth w),
    fun v hv => convert_of_error (input := .fromDecimal v) (parseWord26FromDecimal_of_lt hv), fun text f c hparse => ?_⟩
  exact ⟨codecEncode f c, codecEncode_facility_slice f c, codecEncode_card_slice f c, parityValid_codecEncode f c,
    convert_fromFacilityCard hparse c⟩

/-- Settles O50: the encoded word is parity-valid and carries the inputs. -/
theorem facilityCardConversionValid : Obligations.FacilityCardConversionValid := by
  intro isWs facTrim intParseMax text f c toggles hparse
  have hconvert := convert_fromFacilityCard (toggles := toggles) hparse c
  refine ⟨fun hraw => ?_, fun e => by rw [hconvert]; nofun⟩
  obtain ⟨out, hout, -, hfacility, hcard, hparity, htag⟩ :=
    renderedOutput_of_not_rawHex (tag := .fromFacilityCard) (w := codecEncode f c) hraw
  exact ⟨out, by rw [hconvert, hout], hparity.trans (parityValid_codecEncode f c),
    hfacility.trans (codecEncode_facility_slice f c), hcard.trans (codecEncode_card_slice f c), htag⟩

end Sys2Proof.Machine
end

section
/-! PROOFS: the exceptions family (60_exceptions.md). In the FromFacilityCard form the facility text's error is the input's,
whatever the card; the card is tested only once the text has parsed (R174). -/

namespace Sys2Proof.Machine

theorem admitCard_of_lt {v : U32} (h : cardMax.toNat < v.toNat) : admitCard v = .error .outOfRangeCard := by
  rw [admitCard, opCchk, checkBound_of_lt _ h]
  rfl

section
variable {isWs : Char → Bool} {facTrim : Bool} {intParseMax : Option Nat} {text : Option Text}

theorem inputWord_of_facility_error {e : Failure} (h : parseFacilityText isWs facTrim intParseMax text = .error e)
    (v : U32) : inputWord isWs facTrim intParseMax (.fromFacilityCard text v) = .error e := by
  rw [inputWord, h]

theorem inputWord_of_card_out_of_range {f : FacilityCode}
    (h : parseFacilityText isWs facTrim intParseMax text = .ok f) {v : U32} (hv : cardMax.toNat < v.toNat) :
    inputWord isWs facTrim intParseMax (.fromFacilityCard text v) = .error .outOfRangeCard := by
  rw [inputWord, h, admitCard_of_lt hv]

end

/-- Settles O51: either error is the input's, and an input's error is what `convert` answers under every toggle. -/
theorem facilityCheckedBeforeCard : Obligations.FacilityCheckedBeforeCard := by
  intro isWs facTrim intParseMax text cv toggles
  refine ⟨fun e htext => ?_, fun f htext hcard => ?_⟩
  · exact convert_of_error (inputWord_of_facility_error htext cv)
  · exact convert_of_error (inputWord_of_card_out_of_range htext hcard)

end Sys2Proof.Machine
end

section
/-! PROOFS: the reset and hazards family (70_reset_and_hazards.md). A run over the host's whole queue is an induction over
the queue, one step for each request; the all-zero request is one fixed word, whose answer is evaluated. -/

namespace Sys2Proof.Machine

/-! ### A run over the host's whole queue (R197, R198) -/

/-- A run over the request on the port and all that is queued behind it records the port's answer to each, in order, and
leaves the last of them on the port with nothing queued. -/
theorem run_all_requests (r : PortWord) (rs : List PortWord) (tr : List Transaction) :
    Host.Core.run core (rs.length + 1) (⟨r, rs, tr⟩ : State) =
      .next (⟨rs.getLastD r, [], tr ++ (r :: rs).map fun q => ⟨q, respond q⟩⟩ : State) := by
  induction rs generalizing r tr with
  | nil => rw [List.length_nil, run_succ_of_next (step_of_none_queued r tr), run_zero]; rfl
  | cons q qs ih =>
    rw [List.length_cons, run_succ_of_next (step_of_queued r q qs tr), ih, List.append_assoc, List.getLastD_cons]
    rfl

/-! ### The all-zero request (R191) -/

theorem decode_zero : decode 0 = .ok (.enc 0 0) := by decide

/-- The word of facility 0 and card 0 has only the odd parity bit set. -/
theorem respond_zero : respond 0 = 0x0000000001 := by decide

/-! ### The statements of the reset and hazards family -/

/-- Settles O18, by induction over the queue. -/
theorem runAnswersRequestsInOrder : Obligations.RunAnswersRequestsInOrder :=
  fun r rs tr => ⟨_, run_all_requests r rs tr, rfl, rfl⟩

/-- Settles O2: the step records the port's answer, which for the all-zero request is 1. -/
theorem allZeroRequestAnswersOne : Obligations.AllZeroRequestAnswersOne := by
  refine ⟨decode_zero, fun s hreq => ?_⟩
  have hrsp : s.rsp = 0x0000000001 := by rw [State.rsp, hreq, respond_zero]
  refine ⟨hrsp, ?_⟩
  rw [stepAnswersAsPort s, hreq, hrsp]

end Sys2Proof.Machine
end
